-- ==== Sys2Proof/Word.lean ====
section
/-! DEFINITION. The word types of the machine (spec/00_scope.md R7, R11; spec/10_state.md R21, R23, R24):
every value is an unsigned number of a stated width. -/

namespace Sys2Proof

/-- An 8-bit unsigned number: a memory byte, a general register, a timer, the immediate `NN` (R7 `REG_W`, `TIMER_W`). -/
abbrev Byte := BitVec 8

/-- A 16-bit unsigned number: `I`, `pc`, a stack entry, an opcode (R7 `I_W`, `PC_W`, `OPCODE_W`). -/
abbrev Word := BitVec 16

/-- The 12-bit address field `NNN` (spec/30_encoding.md R72). -/
abbrev Addr12 := BitVec 12

/-- The 4-bit row count `N` of `DXYN` (spec/30_encoding.md R72). -/
abbrev Nibble := BitVec 4

/-- A register index, `X` or `Y`: "every encodable index names an existing register" (spec/10_state.md R21). -/
abbrev RegIx := Fin 16

/-- A key index `0x0` to `0xF` (spec/10_state.md R29). -/
abbrev KeyIx := Fin 16

end Sys2Proof
end

