-- ==== Sys2Proof/Syntax.lean ====
section
/-! DEFINITION. The instructions: one constructor per row of the opcode map, in its order (spec/30_encoding.md R75; 34 rows and no
other, spec/00_scope.md R2). Operands have exactly the widths of the fields of R72, so every term is an instruction the encoding
can spell. Each docstring gives the pattern, which is the instruction's normative name (R80). -/

namespace Sys2Proof

/-- The 34 instructions of R75. -/
inductive Instr where
  /-- `00E0` CLS (R161). -/
  | cls
  /-- `00EE` RET (R111). -/
  | ret
  /-- `1NNN` JP nnn (R112). -/
  | jp (nnn : Addr12)
  /-- `2NNN` CALL nnn (R113). -/
  | call (nnn : Addr12)
  /-- `3XNN` SE Vx, nn (R121). -/
  | seImm (x : RegIx) (nn : Byte)
  /-- `4XNN` SNE Vx, nn (R122). -/
  | sneImm (x : RegIx) (nn : Byte)
  /-- `5XY0` SE Vx, Vy (R123). -/
  | seReg (x y : RegIx)
  /-- `9XY0` SNE Vx, Vy (R124). -/
  | sneReg (x y : RegIx)
  /-- `6XNN` LD Vx, nn (R131). -/
  | ldImm (x : RegIx) (nn : Byte)
  /-- `7XNN` ADD Vx, nn (R132). -/
  | addImm (x : RegIx) (nn : Byte)
  /-- `8XY0` LD Vx, Vy (R133). -/
  | ldReg (x y : RegIx)
  /-- `8XY1` OR Vx, Vy (R134). -/
  | orReg (x y : RegIx)
  /-- `8XY2` AND Vx, Vy (R135). -/
  | andReg (x y : RegIx)
  /-- `8XY3` XOR Vx, Vy (R136). -/
  | xorReg (x y : RegIx)
  /-- `8XY4` ADD Vx, Vy (R137). -/
  | addReg (x y : RegIx)
  /-- `8XY5` SUB Vx, Vy (R138). -/
  | subReg (x y : RegIx)
  /-- `8XY6` SHR Vx (R139). The field `Y` is encoded and ignored (R77); it is kept so that no bit of the word is lost. -/
  | shr (x y : RegIx)
  /-- `8XY7` SUBN Vx, Vy (R140). -/
  | subnReg (x y : RegIx)
  /-- `8XYE` SHL Vx (R141). The field `Y` is encoded and ignored (R77). -/
  | shl (x y : RegIx)
  /-- `ANNN` LD I, nnn (R150). -/
  | ldI (nnn : Addr12)
  /-- `BNNN` JP V0, nnn (R114). -/
  | jpV0 (nnn : Addr12)
  /-- `CXNN` RND Vx, nn (R142). -/
  | rnd (x : RegIx) (nn : Byte)
  /-- `DXYN` DRW Vx, Vy, n (R162). -/
  | drw (x y : RegIx) (n : Nibble)
  /-- `EX9E` SKP Vx (R171). -/
  | skp (x : RegIx)
  /-- `EXA1` SKNP Vx (R172). -/
  | sknp (x : RegIx)
  /-- `FX07` LD Vx, DT (R173). -/
  | ldVxDt (x : RegIx)
  /-- `FX15` LD DT, Vx (R174). -/
  | ldDtVx (x : RegIx)
  /-- `FX18` LD ST, Vx (R175). -/
  | ldStVx (x : RegIx)
  /-- `FX0A` LD Vx, K (R176). -/
  | ldVxKey (x : RegIx)
  /-- `FX1E` ADD I, Vx (R151). -/
  | addI (x : RegIx)
  /-- `FX29` LD F, Vx (R152). -/
  | ldGlyph (x : RegIx)
  /-- `FX33` LD B, Vx (R153). -/
  | ldBcd (x : RegIx)
  /-- `FX55` LD [I], Vx (R154). -/
  | storeRegs (x : RegIx)
  /-- `FX65` LD Vx, [I] (R155). -/
  | loadRegs (x : RegIx)
deriving DecidableEq, Repr

end Sys2Proof
end

