-- ==== Sys2Proof/WellFormed.lean ====
section
/-! DEFINITION. Well-formedness. The operand types of `Instr` leave no ill-formed instruction to refuse, so what can be ill-formed
is a WORD: a word is well-formed when it matches a row of the opcode map (spec/30_encoding.md R75), and illegal otherwise (R78).
The map is written here as data from the columns of R75, apart from the two-level decoder of R74 in Decode.lean, so that each can
be held against the other. -/

namespace Sys2Proof

/-- One row of the opcode map R75: `op` is this instruction if and only if `op & mask = value`. -/
structure OpcodeRow where
  /-- The row's identifier in opcode_table.json (R82). -/
  mnemonic : String
  mask : Word
  /-- The column `match` of R75. -/
  value : Word
deriving DecidableEq, Repr

/-- The 34 rows of R75, in its order. -/
def opcodeRows : Vector OpcodeRow 34 :=
  #v[⟨"CLS",         0xFFFF, 0x00E0⟩,
     ⟨"RET",         0xFFFF, 0x00EE⟩,
     ⟨"JP_NNN",      0xF000, 0x1000⟩,
     ⟨"CALL_NNN",    0xF000, 0x2000⟩,
     ⟨"SE_Vx_NN",    0xF000, 0x3000⟩,
     ⟨"SNE_Vx_NN",   0xF000, 0x4000⟩,
     ⟨"SE_Vx_Vy",    0xF00F, 0x5000⟩,
     ⟨"SNE_Vx_Vy",   0xF00F, 0x9000⟩,
     ⟨"LD_Vx_NN",    0xF000, 0x6000⟩,
     ⟨"ADD_Vx_NN",   0xF000, 0x7000⟩,
     ⟨"LD_Vx_Vy",    0xF00F, 0x8000⟩,
     ⟨"OR_Vx_Vy",    0xF00F, 0x8001⟩,
     ⟨"AND_Vx_Vy",   0xF00F, 0x8002⟩,
     ⟨"XOR_Vx_Vy",   0xF00F, 0x8003⟩,
     ⟨"ADD_Vx_Vy",   0xF00F, 0x8004⟩,
     ⟨"SUB_Vx_Vy",   0xF00F, 0x8005⟩,
     ⟨"SHR_Vx",      0xF00F, 0x8006⟩,
     ⟨"SUBN_Vx_Vy",  0xF00F, 0x8007⟩,
     ⟨"SHL_Vx",      0xF00F, 0x800E⟩,
     ⟨"LD_I_NNN",    0xF000, 0xA000⟩,
     ⟨"JP_V0_NNN",   0xF000, 0xB000⟩,
     ⟨"RND_Vx_NN",   0xF000, 0xC000⟩,
     ⟨"DRW_Vx_Vy_N", 0xF000, 0xD000⟩,
     ⟨"SKP_Vx",      0xF0FF, 0xE09E⟩,
     ⟨"SKNP_Vx",     0xF0FF, 0xE0A1⟩,
     ⟨"LD_Vx_DT",    0xF0FF, 0xF007⟩,
     ⟨"LD_DT_Vx",    0xF0FF, 0xF015⟩,
     ⟨"LD_ST_Vx",    0xF0FF, 0xF018⟩,
     ⟨"LD_Vx_K",     0xF0FF, 0xF00A⟩,
     ⟨"ADD_I_Vx",    0xF0FF, 0xF01E⟩,
     ⟨"LD_F_Vx",     0xF0FF, 0xF029⟩,
     ⟨"LD_B_Vx",     0xF0FF, 0xF033⟩,
     ⟨"LD_mI_Vx",    0xF0FF, 0xF055⟩,
     ⟨"LD_Vx_mI",    0xF0FF, 0xF065⟩]

/-- `op & mask = match` (R75). -/
def OpcodeRow.admits (r : OpcodeRow) (w : Word) : Bool := (w &&& r.mask) == r.value

/-- The check: the word matches some row of the opcode map (R75); the 21582 words it refuses are the illegal words of R78. -/
def wellFormedWord (w : Word) : Bool := opcodeRows.toList.any fun r => r.admits w

/-- The number of an instruction's row in R75, counted from 0. -/
def Instr.rowNumber : Instr → Fin 34
  | .cls => 0
  | .ret => 1
  | .jp _ => 2
  | .call _ => 3
  | .seImm _ _ => 4
  | .sneImm _ _ => 5
  | .seReg _ _ => 6
  | .sneReg _ _ => 7
  | .ldImm _ _ => 8
  | .addImm _ _ => 9
  | .ldReg _ _ => 10
  | .orReg _ _ => 11
  | .andReg _ _ => 12
  | .xorReg _ _ => 13
  | .addReg _ _ => 14
  | .subReg _ _ => 15
  | .shr _ _ => 16
  | .subnReg _ _ => 17
  | .shl _ _ => 18
  | .ldI _ => 19
  | .jpV0 _ => 20
  | .rnd _ _ => 21
  | .drw _ _ _ => 22
  | .skp _ => 23
  | .sknp _ => 24
  | .ldVxDt _ => 25
  | .ldDtVx _ => 26
  | .ldStVx _ => 27
  | .ldVxKey _ => 28
  | .addI _ => 29
  | .ldGlyph _ => 30
  | .ldBcd _ => 31
  | .storeRegs _ => 32
  | .loadRegs _ => 33

/-- An instruction's row of R75. -/
def Instr.row (i : Instr) : OpcodeRow := opcodeRows[i.rowNumber]

end Sys2Proof
end

