-- ==== Sys2Proof/Decode.lean ====
section
/-! DEFINITION. The decoder (spec/30_encoding.md R70 to R74, R78) and the encoder written from the same rows (R71, R75). -/

namespace Sys2Proof

/-- The 16-bit word of two consecutive bytes, the first the high byte (spec/20_memory.md R54, R70). -/
def wordOfBytes (hi lo : Byte) : Word := BitVec.append hi lo

/-- `op[15:8]`, the byte at the lower address (R54). -/
def highByte (w : Word) : Byte := w.extractLsb' 8 8

/-- `op[7:0]`, the byte at the higher address (R54). -/
def lowByte (w : Word) : Byte := w.extractLsb' 0 8

/-- `F = op[15:12]`, the family (R72). -/
def fieldF (w : Word) : BitVec 4 := w.extractLsb' 12 4

/-- `X = op[11:8]` (R72). -/
def fieldX (w : Word) : RegIx := (w.extractLsb' 8 4).toFin

/-- `Y = op[7:4]` (R72). -/
def fieldY (w : Word) : RegIx := (w.extractLsb' 4 4).toFin

/-- `N = op[3:0]` (R72). -/
def fieldN (w : Word) : Nibble := w.extractLsb' 0 4

/-- `NN = op[7:0]` (R72). -/
def fieldNN (w : Word) : Byte := w.extractLsb' 0 8

/-- `NNN = op[11:0]` (R72). -/
def fieldNNN (w : Word) : Addr12 := w.extractLsb' 0 12

/-- Family `0x0` matches the whole word (R74). -/
def decodeFamily0 (w : Word) : Option Instr :=
  match fieldNNN w with
  | 0x0E0#12 => some .cls
  | 0x0EE#12 => some .ret
  | _ => none

/-- Family `0x8` sub-classifies by `op[3:0]` (R74, R76). -/
def decodeFamily8 (w : Word) : Option Instr :=
  let x := fieldX w
  let y := fieldY w
  match fieldN w with
  | 0x0#4 => some (.ldReg x y)
  | 0x1#4 => some (.orReg x y)
  | 0x2#4 => some (.andReg x y)
  | 0x3#4 => some (.xorReg x y)
  | 0x4#4 => some (.addReg x y)
  | 0x5#4 => some (.subReg x y)
  | 0x6#4 => some (.shr x y)
  | 0x7#4 => some (.subnReg x y)
  | 0xE#4 => some (.shl x y)
  | _ => none

/-- Family `0xE` sub-classifies by `op[7:0]` (R74, R76). -/
def decodeFamilyE (w : Word) : Option Instr :=
  let x := fieldX w
  match fieldNN w with
  | 0x9E#8 => some (.skp x)
  | 0xA1#8 => some (.sknp x)
  | _ => none

/-- Family `0xF` sub-classifies by `op[7:0]` (R74, R76). -/
def decodeFamilyF (w : Word) : Option Instr :=
  let x := fieldX w
  match fieldNN w with
  | 0x07#8 => some (.ldVxDt x)
  | 0x0A#8 => some (.ldVxKey x)
  | 0x15#8 => some (.ldDtVx x)
  | 0x18#8 => some (.ldStVx x)
  | 0x1E#8 => some (.addI x)
  | 0x29#8 => some (.ldGlyph x)
  | 0x33#8 => some (.ldBcd x)
  | 0x55#8 => some (.storeRegs x)
  | 0x65#8 => some (.loadRegs x)
  | _ => none

/-- `Decode(op)` (R74, spec/40_step_cycle.md R92): total on the 65536 words, `none` for `Unknown`, reading nothing but the word. -/
def decodeWord (w : Word) : Option Instr :=
  match fieldF w with
  | 0x0#4 => decodeFamily0 w
  | 0x1#4 => some (.jp (fieldNNN w))
  | 0x2#4 => some (.call (fieldNNN w))
  | 0x3#4 => some (.seImm (fieldX w) (fieldNN w))
  | 0x4#4 => some (.sneImm (fieldX w) (fieldNN w))
  | 0x5#4 => if fieldN w = 0 then some (.seReg (fieldX w) (fieldY w)) else none
  | 0x6#4 => some (.ldImm (fieldX w) (fieldNN w))
  | 0x7#4 => some (.addImm (fieldX w) (fieldNN w))
  | 0x8#4 => decodeFamily8 w
  | 0x9#4 => if fieldN w = 0 then some (.sneReg (fieldX w) (fieldY w)) else none
  | 0xA#4 => some (.ldI (fieldNNN w))
  | 0xB#4 => some (.jpV0 (fieldNNN w))
  | 0xC#4 => some (.rnd (fieldX w) (fieldNN w))
  | 0xD#4 => some (.drw (fieldX w) (fieldY w) (fieldN w))
  | 0xE#4 => decodeFamilyE w
  | _ => decodeFamilyF w

/-- Why a byte sequence gives no instruction. -/
inductive DecodeError where
  /-- Fewer than the two bytes every instruction has (R70). -/
  | truncated
  /-- The word matches no row of R75 (R78). -/
  | unknownOpcode (w : Word)
deriving DecidableEq, Repr

/-- Decoding a byte sequence in memory order: total, rejecting by name, answering the instruction and the bytes after it. Every
instruction is two bytes long (R70). -/
def decode : List Byte → Except DecodeError (Instr × List Byte)
  | [] => .error .truncated
  | [_] => .error .truncated
  | hi :: lo :: rest =>
    match decodeWord (wordOfBytes hi lo) with
    | some i => .ok (i, rest)
    | none => .error (.unknownOpcode (wordOfBytes hi lo))

/-! ### The encoder, from the six layouts of R71 and the `match` column of R75. -/

/-- Format `A`: family, `NNN`. -/
def formatA (f : BitVec 4) (nnn : Addr12) : Word := BitVec.append f nnn

/-- Format `XI`: family, `X`, `NN`; and format `XS`, where the low byte is the sub-opcode. -/
def formatXI (f : BitVec 4) (x : RegIx) (nn : Byte) : Word :=
  BitVec.append f (BitVec.append (BitVec.ofFin x : BitVec 4) nn : BitVec 12)

/-- Format `XY`: family, `X`, `Y`, sub-opcode; and format `XYN`, where the low nibble is `N`. -/
def formatXY (f : BitVec 4) (x y : RegIx) (n : Nibble) : Word :=
  BitVec.append f (BitVec.append (BitVec.ofFin x : BitVec 4) (BitVec.append (BitVec.ofFin y : BitVec 4) n : BitVec 8) : BitVec 12)

/-- The word of an instruction (R71, R75). -/
def encode : Instr → Word
  | .cls => 0x00E0
  | .ret => 0x00EE
  | .jp nnn => formatA 0x1 nnn
  | .call nnn => formatA 0x2 nnn
  | .seImm x nn => formatXI 0x3 x nn
  | .sneImm x nn => formatXI 0x4 x nn
  | .seReg x y => formatXY 0x5 x y 0x0
  | .sneReg x y => formatXY 0x9 x y 0x0
  | .ldImm x nn => formatXI 0x6 x nn
  | .addImm x nn => formatXI 0x7 x nn
  | .ldReg x y => formatXY 0x8 x y 0x0
  | .orReg x y => formatXY 0x8 x y 0x1
  | .andReg x y => formatXY 0x8 x y 0x2
  | .xorReg x y => formatXY 0x8 x y 0x3
  | .addReg x y => formatXY 0x8 x y 0x4
  | .subReg x y => formatXY 0x8 x y 0x5
  | .shr x y => formatXY 0x8 x y 0x6
  | .subnReg x y => formatXY 0x8 x y 0x7
  | .shl x y => formatXY 0x8 x y 0xE
  | .ldI nnn => formatA 0xA nnn
  | .jpV0 nnn => formatA 0xB nnn
  | .rnd x nn => formatXI 0xC x nn
  | .drw x y n => formatXY 0xD x y n
  | .skp x => formatXI 0xE x 0x9E
  | .sknp x => formatXI 0xE x 0xA1
  | .ldVxDt x => formatXI 0xF x 0x07
  | .ldDtVx x => formatXI 0xF x 0x15
  | .ldStVx x => formatXI 0xF x 0x18
  | .ldVxKey x => formatXI 0xF x 0x0A
  | .addI x => formatXI 0xF x 0x1E
  | .ldGlyph x => formatXI 0xF x 0x29
  | .ldBcd x => formatXI 0xF x 0x33
  | .storeRegs x => formatXI 0xF x 0x55
  | .loadRegs x => formatXI 0xF x 0x65

/-- The bytes of an instruction in memory order, the high byte at the lower address (R54). -/
def encodeBytes (i : Instr) : List Byte := [highByte (encode i), lowByte (encode i)]

/-- The instruction an opcode-table word names: `w` numbers the bits from bit 0, the least significant bit of the 16-bit word, and
bits at and above `nbits` are 0. The word is laid out in memory order and given to `decode`. -/
def decodeTableWord (nbits w : Nat) : Option Instr :=
  let word : Word := BitVec.ofNat 16 (w % 2 ^ nbits)
  match decode [highByte word, lowByte word] with
  | .ok (i, _) => some i
  | .error _ => none

end Sys2Proof
end

