-- ==== Sys2Proof/Config.lean ====
section
/-! DEFINITION. The two parameters the spec leaves OPEN (spec/00_scope.md R8; spec/92_eei_decisions.md D16, D18), as
constants with no body, and the customary font table of R213, which no definition of the machine uses. -/

namespace Sys2Proof.Config

/-- `FONT` (R8 (a), R212; D18 OPEN): the 80 font bytes, an opaque constant. The spec fixes that the table exists, its size, its
place and its layout, and prints no byte of it as a fact of this hardware. Log entry 1. -/
opaque font : Fin 80 → Byte

/-- The random bytes (R8 (b), R38, R100; D16 OPEN): `randomByte n` is the byte `r` that the `n`-th execution of `CXNN` draws.
An opaque constant: nothing is known of any value of it. Log entry 2. -/
opaque randomByte : Nat → Byte

/-- Glyphs 0 to 7 of the customary table of spec/70_reset_and_hazards.md R213. -/
def customaryGlyphs0to7 : List Byte :=
  [0xF0, 0x90, 0x90, 0x90, 0xF0,
   0x20, 0x60, 0x20, 0x20, 0x70,
   0xF0, 0x10, 0xF0, 0x80, 0xF0,
   0xF0, 0x10, 0xF0, 0x10, 0xF0,
   0x90, 0x90, 0xF0, 0x10, 0x10,
   0xF0, 0x80, 0xF0, 0x10, 0xF0,
   0xF0, 0x80, 0xF0, 0x90, 0xF0,
   0xF0, 0x10, 0x20, 0x40, 0x40]

/-- Glyphs 8 to F of the customary table of R213. -/
def customaryGlyphs8toF : List Byte :=
  [0xF0, 0x90, 0xF0, 0x90, 0xF0,
   0xF0, 0x90, 0xF0, 0x10, 0xF0,
   0xF0, 0x90, 0xF0, 0x90, 0x90,
   0xE0, 0x90, 0xE0, 0x90, 0xE0,
   0xF0, 0x80, 0x80, 0x80, 0xF0,
   0xE0, 0x90, 0x90, 0x90, 0xE0,
   0xF0, 0x80, 0xF0, 0x80, 0xF0,
   0xF0, 0x80, 0xF0, 0x80, 0x80]

/-- The customary 80 bytes (R213, "from general knowledge, not in source"). -/
def customaryFont : List Byte := customaryGlyphs0to7 ++ customaryGlyphs8toF

/-- The assumption R213 asks a claim about glyph bits to name: the hardware's `FONT` is the customary table. -/
def FontIsCustomary : Prop := ∀ a : Fin 80, customaryFont[a.val]? = some (font a)

end Sys2Proof.Config
end

