-- ==== Sys2Proof/Machine/State.lean ====
section
/-! DEFINITION. The Machine State of spec/10_state.md R20: its twelve components, and one field of the model's own, the number of
random bytes drawn. All of it is plain data. -/

namespace Sys2Proof.Machine

/-- The five causes of a fatal condition (spec/60_exceptions.md R181). -/
inductive Cause where
  /-- Cause 1, raised by the decode of any step (R182). -/
  | unknownOpcode
  /-- Cause 2, raised by `2NNN` when `SP = 16` (R183). -/
  | stackOverflow
  /-- Cause 3, raised by `00EE` when `SP = 0` (R184). -/
  | stackUnderflow
  /-- Cause 4, raised by the fetch, `DXYN`, `FX33`, `FX55`, `FX65` (R185). -/
  | addressOutOfRange
  /-- Cause 5, raised by `EX9E` and `EXA1` when `VX >= 16` (R187). -/
  | keyIndexOutOfRange
deriving DecidableEq, Repr

/-- `STATUS` (R31): `Running`, or `Halted(cause, info)` with the 16-bit value of R181. -/
inductive Status where
  | running
  | halted (cause : Cause) (info : Word)
deriving DecidableEq, Repr

/-- `MEM` (R27) as (address, byte) pairs, in the canonical form that `Memory.wf` (Machine/Ops.lean) states. -/
abbrev Memory := List Host.Cell

/-- `PIX` (R28): 32 rows of 64 one-bit pixels. `PIX[64 * y + x]` is the pixel in column `x` of row `y`, here `pix[y][x]`. -/
abbrev Surface := Vector (Vector Bool 64) 32

/-- The sixteen general registers `V0` to `VF` (R21). -/
abbrev Regs := Vector Byte 16

/-- The Machine State (R20). -/
structure State where
  /-- `MEM`, 4096 bytes (R27). -/
  mem : Memory
  /-- `V[0..15]`; `v[15]` is `VF`, the only flag (R21, R22). -/
  v : Regs
  /-- `I`, the index register, 16 bits and never masked to 12 (R23). -/
  i : Word
  /-- `pc` (R24). -/
  pc : Word
  /-- `STACK[0..15]`, outside memory (R25). -/
  stack : Vector Word 16
  /-- `SP`, the number of saved return addresses, `0` to `16` (R25). -/
  sp : Fin 17
  /-- `DT`, the delay timer (R26). -/
  dt : Byte
  /-- `ST`, the sound timer (R26). -/
  st : Byte
  /-- `PIX`, the pixel surface (R28). -/
  pix : Surface
  /-- `KEY[0..15]`, true for pressed (R29). -/
  key : Vector Bool 16
  /-- `DCF`, the display-changed flag (R30). -/
  dcf : Bool
  /-- `STATUS` (R31). -/
  status : Status
  /-- How many random bytes have been drawn: the model's own field, not the spec's, from which `Config.randomByte` supplies the free
  input `r` of R38. Log entry 2. -/
  draws : Nat
deriving DecidableEq, Repr

/-- The reasons for which a step can answer a fault. There are none, and so no constructor: every fatal condition of the spec has a
described outcome, `STATUS <- Halted(cause, info)` (R186), and is a next state; a step request while halted does nothing (R90) and
is a next state too. Safe: nothing is cut short by a fault. Log entry 5. -/
inductive Fault where
deriving DecidableEq, Repr

/-- The reasons for which a step can be refused. -/
inductive Refusal where
  /-- Raised by an arm of `exec` for an instruction that has no meaning yet, by its mnemonic; safe, since the machine stops. No arm of
  `exec` answers it now. -/
  | notModelled (mnemonic : String)
deriving DecidableEq, Repr

/-- What a meaning answers. -/
abbrev Result := Host.Outcome State Fault Refusal

/-- The state right after construction, the machine's only reset (R35, spec/70_reset_and_hazards.md R210). No byte of memory is
listed: `Memory.resetByte` is the font (`load_font`, R211) and zeros. -/
def State.reset : State where
  mem := []
  v := Vector.replicate 16 0
  i := 0
  pc := 0x200
  stack := Vector.replicate 16 0
  sp := 0
  dt := 0
  st := 0
  pix := Vector.replicate 32 (Vector.replicate 64 false)
  key := Vector.replicate 16 false
  dcf := false
  status := .running
  draws := 0

end Sys2Proof.Machine
end

