-- ==== Sys2Proof/Machine/Ops.lean ====
section
/-! DEFINITION. The named operations over memory, registers, stack, surface, keys and timers, and the raising of a fatal condition.
Every meaning is written over these. -/

namespace Sys2Proof.Machine

/-! ### Memory (spec/20_memory.md) -/

/-- What an address that is not listed reads as: the contents after construction (spec/10_state.md R27, R35), which are `FONT` at
`0` to `79` and zero above. -/
def Memory.resetByte (a : Nat) : Byte := if h : a < 80 then Config.font ⟨a, h⟩ else 0

/-- `MemRead(a, 1)` for an address already checked (R12). -/
def Memory.read : Memory → Nat → Byte
  | [], a => Memory.resetByte a
  | (b, w) :: rest, a => if a = b then w else Memory.read rest a

/-- Every entry of an address removed. -/
def Memory.erase (m : Memory) (a : Nat) : Memory := m.filter fun c => decide (c.1 ≠ a)

/-- An entry put in its place by address. -/
def Memory.insert : Memory → Nat → Byte → Memory
  | [], a, v => [(a, v)]
  | c :: rest, a, v => if a < c.1 then (a, v) :: c :: rest else c :: Memory.insert rest a v

/-- `MemWrite(a, 1, v)` for an address already checked (R12, R56): it stores exactly the byte given and changes no other byte. It keeps
the canonical form: a byte equal to what an unlisted address reads as is not listed. -/
def Memory.write (m : Memory) (a : Nat) (v : Byte) : Memory :=
  if v = Memory.resetByte a then Memory.erase m a else Memory.insert (Memory.erase m a) a v

/-- Bytes written at rising addresses from `a` (R54, R156). -/
def Memory.writeBytes : Memory → Nat → List Byte → Memory
  | m, _, [] => m
  | m, a, b :: bs => Memory.writeBytes (Memory.write m a b) (a + 1) bs

/-- `n` bytes read at rising addresses from `a` (R54, R156). -/
def Memory.readBytes (m : Memory) : Nat → Nat → List Byte
  | _, 0 => []
  | a, n + 1 => Memory.read m a :: Memory.readBytes m (a + 1) n

/-- The canonical form from address `lo` up: addresses strictly rising and below 4096, no entry equal to what an unlisted address
reads as. -/
def Memory.wfFrom : Nat → Memory → Bool
  | _, [] => true
  | lo, (a, v) :: rest =>
    decide (lo ≤ a) && decide (a < 4096) && decide (v ≠ Memory.resetByte a) && Memory.wfFrom (a + 1) rest

/-- The canonical form of memory. -/
def Memory.wf (m : Memory) : Bool := Memory.wfFrom 0 m

/-! ### Fatal conditions (spec/60_exceptions.md R180 to R188) -/

/-- `raise Cause(info)` (R186), the entry of every fatal condition: `STATUS <- Halted(cause, info)`, and nothing else changes. There is
no handler, no saved register but `STATUS`, no vector, and no return (R191), so no operation stands beside it. -/
def raise (cause : Cause) (info : Word) (s : State) : Result :=
  .next { s with status := .halted cause info }

/-- The lowest address of `count` consecutive bytes from `base` that lies at 4096 or beyond, if there is one. The addresses are the
mathematical sums `base + k`, neither wrapped nor masked (R53). -/
def firstOutOfRange (base : Word) (count : Nat) : Option Word :=
  if 0 < count ∧ 4096 ≤ base.toNat + (count - 1) then some (BitVec.ofNat 16 (max base.toNat 4096)) else none

/-- An access to `count` bytes from `base`: all of them are checked before anything is written (R53, R94), and the lowest offending
address is recorded (R185). -/
def withBytes (base : Word) (count : Nat) (s : State) (access : Result) : Result :=
  match firstOutOfRange base count with
  | some a => raise .addressOutOfRange a s
  | none => access

/-! ### Registers and the program counter -/

/-- `V[x]`. -/
abbrev State.reg (s : State) (x : RegIx) : Byte := s.v[x]

/-- `V[x] <- b`. -/
def State.setReg (s : State) (x : RegIx) (b : Byte) : State := { s with v := s.v.set x b }

/-- `I <- w`. -/
def State.setI (s : State) (w : Word) : State := { s with i := w }

/-- `pc <- w` (spec/40_step_cycle.md R96 (c)). -/
def State.jump (s : State) (w : Word) : State := { s with pc := w }

/-- `pc <- pc + 2`, the fallthrough, modulo 65536 (R96 (a)). -/
def State.advance (s : State) : State := s.jump (s.pc + 2)

/-- `pc <- pc + 4` if the condition holds, else `pc <- pc + 2` (R96 (b), spec/42_skips.md R120). -/
def State.skipIf (s : State) (c : Bool) : State := if c then s.jump (s.pc + 4) else s.advance

/-! ### The stack (spec/10_state.md R25) -/

/-- Push: nothing when `SP = 16`, else `STACK[SP] <- w; SP <- SP + 1`. -/
def State.push (s : State) (w : Word) : Option State :=
  if h : s.sp.val < 16 then
    some { s with stack := s.stack.set s.sp.val w h, sp := ⟨s.sp.val + 1, by omega⟩ }
  else none

/-- Pop: nothing when `SP = 0`, else `SP <- SP - 1` and the entry `STACK[SP]`, which stays in the stack. -/
def State.pop (s : State) : Option (Word × State) :=
  if h : s.sp.val = 0 then none
  else some (s.stack[s.sp.val - 1]'(by omega), { s with sp := ⟨s.sp.val - 1, by omega⟩ })

/-! ### Block register load (spec/44_index_memory.md R155) -/

/-- `V[k] <- MemRead(a + k, 1)` for `k` from 0 to `x`; registers above `x` are unchanged. The order is not observable (R155). -/
def State.loadBlock (s : State) (a : Nat) (x : RegIx) : State :=
  { s with v := Vector.ofFn fun k : Fin 16 => if k ≤ x then Memory.read s.mem (a + k.val) else s.v[k] }

/-- `V[0]` to `V[x]`, ascending (R154). -/
def State.block (s : State) (x : RegIx) : List Byte := s.v.toList.take (x.val + 1)

/-! ### The pixel surface (spec/45_display.md) -/

/-- Every pixel 0. -/
def Surface.blank : Surface := Vector.replicate 32 (Vector.replicate 64 false)

/-- One sprite pixel at column `x`, row `y`, both integers (R162): a bit of 1 flips the pixel under it, and a pixel that was 1 is a
collision; a pixel off the surface is dropped, with no wrap of any kind (R163). The accumulator is the surface and "collision so far". -/
def drawPixel (bit : Bool) (x y : Nat) (acc : Surface × Bool) : Surface × Bool :=
  if bit then
    if h : x < 64 ∧ y < 32 then
      (acc.1.set y (acc.1[y].set x (!acc.1[y][x])), acc.2 || acc.1[y][x])
    else acc
  else acc

/-- One sprite row: column `col` is bit `7 - col` of the byte (R160). -/
def drawRow (b : Byte) (x0 y : Nat) (acc : Surface × Bool) : Surface × Bool :=
  [0, 1, 2, 3, 4, 5, 6, 7].foldl (fun acc col => drawPixel (b.getLsbD (7 - col)) (x0 + col) y acc) acc

/-- The sprite rows, top to bottom (R160, R162). -/
def drawSprite : List Byte → Nat → Nat → Surface × Bool → Surface × Bool
  | [], _, _, acc => acc
  | b :: bs, x0, y, acc => drawSprite bs x0 (y + 1) (drawRow b x0 y acc)

/-! ### Keys (spec/46_keys_timers.md) -/

/-- The key indices from the highest to the lowest. -/
def keysDescending : List KeyIx := [15, 14, 13, 12, 11, 10, 9, 8, 7, 6, 5, 4, 3, 2, 1, 0]

/-- The largest `k` with `KEY[k]`, if a key is pressed (R176). -/
def State.highestKey (s : State) : Option KeyIx := keysDescending.find? fun k => s.key[k]

/-! ### Random input (spec/40_step_cycle.md R100) -/

/-- `rnd()`: one free byte, and the count of draws advanced. -/
def State.draw (s : State) : Byte × State := (Config.randomByte s.draws, { s with draws := s.draws + 1 })

/-! ### The stages of the step around the instruction (spec/40_step_cycle.md R90) -/

/-- The word the fetch reads: `MEM[pc] * 256 + MEM[pc + 1]` (R54, R91). -/
def State.fetchWord (s : State) : Word :=
  wordOfBytes (Memory.read s.mem s.pc.toNat) (Memory.read s.mem (s.pc.toNat + 1))

/-- One timer's tick: toward zero by one, never below (R98). -/
def tickTimer (b : Byte) : Byte := if b = 0 then 0 else b - 1

/-- The Timer Tick (R98). -/
def State.tick (s : State) : State := { s with dt := tickTimer s.dt, st := tickTimer s.st }

/-- The end of a step whose instruction left `s`: the Timer Tick, unless the instruction raised a fatal condition (R94, R98). -/
def State.endStep (s : State) : State :=
  match s.status with
  | .running => s.tick
  | .halted _ _ => s

/-- `s` made to fetch the word: the two bytes at `pc`, high byte first. A fetch needs a running machine and `pc + 1 < 4096` (R90), so a
halted machine is set running and a `pc` too high for a fetch is put at `0x200`; nothing else changes. -/
def State.placeWord (s : State) (w : Word) : State :=
  let pc : Word := if s.pc.toNat + 1 < 4096 then s.pc else 0x200
  { s with
    mem := Memory.writeBytes s.mem pc.toNat [highByte w, lowByte w]
    pc := pc
    status := .running }

end Sys2Proof.Machine
end

