-- ==== Sys2Proof/Machine/Operands.lean ====
section
/-! DEFINITION. The operand forms of spec/30_encoding.md R73 and the one data addressing mode of spec/44_index_memory.md R156. There
are no others. -/

namespace Sys2Proof.Machine

/-- `zext_16(NNN)`: an address immediate is a byte address, neither scaled nor sign-extended (R73). -/
def zextAddr (nnn : Addr12) : Word := nnn.setWidth 16

/-- `zext_16(b)` of a register or immediate byte (R11, R73). -/
def zextByte (b : Byte) : Word := b.setWidth 16

/-- The effective address of the first byte of a data access: `I` as an integer (R156). -/
def State.dataBase (s : State) : Nat := s.i.toNat

/-- The jump target of `BNNN`: `(zext_16(NNN) + zext_16(V[0])) mod 65536` (spec/41_flow_control.md R114). -/
def State.indexedTarget (s : State) (nnn : Addr12) : Word := zextAddr nnn + zextByte (s.reg 0)

/-- The `n` sprite bytes of `DXYN` from `I` (spec/45_display.md R160). -/
def State.spriteBytes (s : State) (n : Nibble) : List Byte := Memory.readBytes s.mem s.dataBase n.toNat

/-- The three decimal digits of a byte, hundreds first (spec/44_index_memory.md R153). -/
def bcdDigits (b : Byte) : List Byte := [b / 100, (b / 10) % 10, b % 10]

/-- The address of the font glyph of a value: `5 * v`, the whole byte (spec/44_index_memory.md R152). -/
def glyphAddress (b : Byte) : Word := 5 * zextByte b

end Sys2Proof.Machine
end

