-- ==== Sys2Proof/Machine/Flags.lean ====
section
/-! DEFINITION. Every computation of the flag register `VF` (spec/10_state.md R22). -/

namespace Sys2Proof.Machine

/-- A flag outcome as a byte: 1 or 0 (R22). -/
def flagByte (c : Bool) : Byte := if c then 1 else 0

/-- `V[15] <-` a flag byte. -/
def State.setFlag (s : State) (b : Byte) : State := s.setReg 15 b

/-- Carry of `a + b`: `a + b > 255` as integers (spec/43_alu.md R130, R137). -/
def carryOf (a b : Byte) : Byte := flagByte (decide (255 < a.toNat + b.toNat))

/-- No borrow of `a - b`: `a >= b` (R130, R138). -/
def noBorrowOf (a b : Byte) : Byte := flagByte (decide (b.toNat ≤ a.toNat))

/-- The bit a right shift by one shifts out: bit 0 (R139). -/
def lowBitOf (a : Byte) : Byte := a &&& 1

/-- The bit a left shift by one shifts out: bit 7 (R141). -/
def highBitOf (a : Byte) : Byte := (a >>> 7) &&& 1

/-- The range flag of `FX1E`: the unwrapped sum passes `0xFFF` (spec/44_index_memory.md R151). -/
def indexFlagOf (w : Word) (b : Byte) : Byte := flagByte (decide (0xFFF < w.toNat + b.toNat))

end Sys2Proof.Machine
end

