-- ==== Sys2Proof/Machine/Alu.lean ====
section
/-! DEFINITION. Register load and arithmetic: `6XNN`, `7XNN`, `8XY0` to `8XY7`, `8XYE`, `CXNN` (spec/43_alu.md). Effects follow one another in
the order of each rule, each reading the state the previous one left (spec/40_step_cycle.md R97). `BitVec` addition and subtraction
of bytes are modulo 256 (R130). -/

namespace Sys2Proof.Machine

/-- The result is written to `VX`, then the flag to `VF`: the order of `8XY4`, `8XY5`, `8XY7` (R97). -/
def resultThenFlag (x : RegIx) (result flag : Byte) (s : State) : Result :=
  .next ((s.setReg x result).setFlag flag).advance

/-- The flag is written to `VF`, then `VX` is read again and its image under `f` written: the order of `8XY6`, `8XYE` (R97). -/
def flagThenUpdate (x : RegIx) (flag : Byte) (f : Byte → Byte) (s : State) : Result :=
  let s' := s.setFlag flag
  .next (s'.setReg x (f (s'.reg x))).advance

/-- `6XNN` (R131). -/
def execLdImm (x : RegIx) (nn : Byte) (s : State) : Result := .next (s.setReg x nn).advance

/-- `7XNN` (R132): no flag. -/
def execAddImm (x : RegIx) (nn : Byte) (s : State) : Result := .next (s.setReg x (s.reg x + nn)).advance

/-- `8XY0` (R133). -/
def execLdReg (x y : RegIx) (s : State) : Result := .next (s.setReg x (s.reg y)).advance

/-- `8XY1` (R134). -/
def execOrReg (x y : RegIx) (s : State) : Result := .next (s.setReg x (s.reg x ||| s.reg y)).advance

/-- `8XY2` (R135). -/
def execAndReg (x y : RegIx) (s : State) : Result := .next (s.setReg x (s.reg x &&& s.reg y)).advance

/-- `8XY3` (R136). -/
def execXorReg (x y : RegIx) (s : State) : Result := .next (s.setReg x (s.reg x ^^^ s.reg y)).advance

/-- `8XY4` (R137). -/
def execAddReg (x y : RegIx) (s : State) : Result :=
  resultThenFlag x (s.reg x + s.reg y) (carryOf (s.reg x) (s.reg y)) s

/-- `8XY5` (R138). -/
def execSubReg (x y : RegIx) (s : State) : Result :=
  resultThenFlag x (s.reg x - s.reg y) (noBorrowOf (s.reg x) (s.reg y)) s

/-- `8XY6` (R139): in place; the field `Y` is ignored (spec/30_encoding.md R77). -/
def execShr (x : RegIx) (s : State) : Result := flagThenUpdate x (lowBitOf (s.reg x)) (fun a => a >>> 1) s

/-- `8XY7` (R140). -/
def execSubnReg (x y : RegIx) (s : State) : Result :=
  resultThenFlag x (s.reg y - s.reg x) (noBorrowOf (s.reg y) (s.reg x)) s

/-- `8XYE` (R141): in place; the field `Y` is ignored (spec/30_encoding.md R77). -/
def execShl (x : RegIx) (s : State) : Result := flagThenUpdate x (highBitOf (s.reg x)) (fun a => a <<< 1) s

/-- `CXNN` (R142): the free byte of this draw, masked. -/
def execRnd (x : RegIx) (nn : Byte) (s : State) : Result :=
  match s.draw with
  | (r, s') => .next (s'.setReg x (r &&& nn)).advance

end Sys2Proof.Machine
end

