-- ==== Sys2Proof/Machine/Display.lean ====
section
/-! DEFINITION. Display: `00E0`, `DXYN` (spec/45_display.md). -/

namespace Sys2Proof.Machine

/-- `00E0` (R161): `DCF` is set whether or not a pixel changed (spec/10_state.md R30). -/
def execCls (s : State) : Result := .next { s with pix := Surface.blank, dcf := true }.advance

/-- `DXYN` (R162): the coordinates are read before `VF` is written, and not reduced; every sprite byte is checked first, and none
when `N = 0`; `VF` is the collision; `DCF` is set always. -/
def execDrw (x y : RegIx) (n : Nibble) (s : State) : Result :=
  withBytes s.i n.toNat s
    (match drawSprite (s.spriteBytes n) (s.reg x).toNat (s.reg y).toNat (s.pix, false) with
     | (pix, collision) => .next ({ s with pix := pix, dcf := true }.setFlag (flagByte collision)).advance)

end Sys2Proof.Machine
end

