-- ==== Sys2Proof/Machine/Flow.lean ====
section
/-! DEFINITION. Flow control and the stack engine: `00EE`, `1NNN`, `2NNN`, `BNNN` (spec/41_flow_control.md). Nothing checks the value written
to `pc` (R110). -/

namespace Sys2Proof.Machine

/-- `00EE` (R111): the saved address plus 2; `StackUnderflow(pc)` when `SP = 0`. -/
def execRet (s : State) : Result :=
  match s.pop with
  | none => raise .stackUnderflow s.pc s
  | some (saved, s') => .next (s'.jump (saved + 2))

/-- `1NNN` (R112). -/
def execJp (nnn : Addr12) (s : State) : Result := .next (s.jump (zextAddr nnn))

/-- `2NNN` (R113): pushes the address of the call itself; `StackOverflow(pc)` when `SP = 16`. -/
def execCall (nnn : Addr12) (s : State) : Result :=
  match s.push s.pc with
  | none => raise .stackOverflow s.pc s
  | some s' => .next (s'.jump (zextAddr nnn))

/-- `BNNN` (R114). -/
def execJpV0 (nnn : Addr12) (s : State) : Result := .next (s.jump (s.indexedTarget nnn))

end Sys2Proof.Machine
end

