-- ==== Sys2Proof/Machine/Index.lean ====
section
/-! DEFINITION. Index register and memory: `ANNN`, `FX1E`, `FX29`, `FX33`, `FX55`, `FX65` (spec/44_index_memory.md). -/

namespace Sys2Proof.Machine

/-- `ANNN` (R150). -/
def execLdI (nnn : Addr12) (s : State) : Result := .next (s.setI (zextAddr nnn)).advance

/-- `FX1E` (R151): the flag first, then `I` plus `VX` as read after the flag was written (R97), modulo 65536. -/
def execAddI (x : RegIx) (s : State) : Result :=
  let s' := s.setFlag (indexFlagOf s.i (s.reg x))
  .next (s'.setI (s'.i + zextByte (s'.reg x))).advance

/-- `FX29` (R152). -/
def execLdGlyph (x : RegIx) (s : State) : Result := .next (s.setI (glyphAddress (s.reg x))).advance

/-- `FX33` (R153). -/
def execLdBcd (x : RegIx) (s : State) : Result :=
  withBytes s.i 3 s
    (.next { s with mem := Memory.writeBytes s.mem s.dataBase (bcdDigits (s.reg x)) }.advance)

/-- `FX55` (R154). -/
def execStoreRegs (x : RegIx) (s : State) : Result :=
  withBytes s.i (x.val + 1) s
    (.next ({ s with mem := Memory.writeBytes s.mem s.dataBase (s.block x) }.setI
      (s.i + BitVec.ofNat 16 (x.val + 1))).advance)

/-- `FX65` (R155). -/
def execLoadRegs (x : RegIx) (s : State) : Result :=
  withBytes s.i (x.val + 1) s
    (.next ((s.loadBlock s.dataBase x).setI (s.i + BitVec.ofNat 16 (x.val + 1))).advance)

end Sys2Proof.Machine
end

