-- ==== Sys2Proof/Machine/KeysTimers.lean ====
section
/-! DEFINITION. Keys and timers: `EX9E`, `EXA1`, `FX07`, `FX15`, `FX18`, `FX0A` (spec/46_keys_timers.md). -/

namespace Sys2Proof.Machine

/-- The key named by the contents of `VX`, with `KeyIndexOutOfRange(VX)` when it is 16 or more (R171, R172,
spec/60_exceptions.md R187). -/
def withKey (x : RegIx) (s : State) (k : Bool → Result) : Result :=
  if h : (s.reg x).toNat < 16 then k (s.key[(s.reg x).toNat]) else raise .keyIndexOutOfRange (zextByte (s.reg x)) s

/-- `EX9E` (R171). -/
def execSkp (x : RegIx) (s : State) : Result := withKey x s fun pressed => .next (s.skipIf pressed)

/-- `EXA1` (R172). -/
def execSknp (x : RegIx) (s : State) : Result := withKey x s fun pressed => .next (s.skipIf !pressed)

/-- `FX07` (R173). -/
def execLdVxDt (x : RegIx) (s : State) : Result := .next (s.setReg x s.dt).advance

/-- `FX15` (R174). -/
def execLdDtVx (x : RegIx) (s : State) : Result := .next { s with dt := s.reg x }.advance

/-- `FX18` (R175). -/
def execLdStVx (x : RegIx) (s : State) : Result := .next { s with st := s.reg x }.advance

/-- `FX0A` (R176): with no key pressed nothing changes, `pc` included, and the next step executes the same instruction again. -/
def execLdVxKey (x : RegIx) (s : State) : Result :=
  match s.highestKey with
  | some k => .next (s.setReg x (BitVec.ofNat 8 k.val)).advance
  | none => .next s

end Sys2Proof.Machine
end

