-- ==== Sys2Proof/Machine/Step.lean ====
section
/-! DEFINITION. The step (spec/40_step_cycle.md R90), and the placing of a word where the next step fetches. -/

namespace Sys2Proof.Machine

/-- `Step` (R90): nothing when halted; else fetch with its range check, decode, execute, and the Timer Tick unless a fatal condition
was raised. The random byte of R38 is drawn by `CXNN` from `State.draws`. -/
def step (s : State) : Host.Outcome State Fault Refusal :=
  match s.status with
  | .halted _ _ => .next s
  | .running =>
    withBytes s.pc 2 s
      (match decodeWord s.fetchWord with
       | none => raise .unknownOpcode s.fetchWord s
       | some i =>
         match exec i s with
         | .next s' => .next s'.endStep
         | .fault r => .fault r
         | .refused r => .refused r)

/-- `s` with the instruction of an opcode-table word stored where `step` fetches next. Bits at and above `nbits` are 0. Log entry 6. -/
def State.withFetchWord (s : State) (nbits w : Nat) : State := s.placeWord (BitVec.ofNat 16 (w % 2 ^ nbits))

end Sys2Proof.Machine
end

