-- ==== Sys2Proof/Machine/Interface.lean ====
section
/-! DEFINITION. The host's moves between steps (spec/10_state.md R36 to R41; spec/70_reset_and_hazards.md R210 to R216, R222) and what
the core shows it. They are no instructions and no part of `step`; a run of the machine with its host is a sequence of them. -/

namespace Sys2Proof.Machine

/-! ### Construction and the Loader -/

/-- `construct()` (R210): the state after construction, whatever the state was. The number of draws is kept, since the randomness
source is no state of the core and is not restarted (spec/10_state.md R32). -/
def State.construct (s : State) : State := { State.reset with draws := s.draws }

/-- The Loader's recoverable errors, results handed to the host and no fatal conditions (R215). -/
inductive LoadError where
  /-- More than 3584 bytes. -/
  | romTooLarge
  /-- The collaborator that supplies the bytes failed ("propagated, not interpreted"). -/
  | retrievalFailed
deriving DecidableEq, Repr

/-- What the collaborator hands the Loader: the ROM's bytes, or its own failure (spec/10_state.md R41). -/
inductive RomSource where
  | bytes (rom : List Byte)
  | failed
deriving DecidableEq, Repr

/-- `load_program` (R214, R215): the machine after it, and the error if it failed. A failure changes nothing. -/
def State.loadProgram (s : State) : RomSource → State × Option LoadError
  | .failed => (s, some .retrievalFailed)
  | .bytes rom =>
    if 3584 < rom.length then (s, some .romTooLarge)
    else ({ s with mem := Memory.writeBytes s.mem 0x200 rom }, none)

/-! ### Keys and the display-changed flag -/

/-- The host sets one key down or up (R37). -/
def State.setKey (s : State) (k : KeyIx) (down : Bool) : State := { s with key := s.key.set k down }

/-- The host clears `DCF` after consuming a frame (R39). -/
def State.clearDcf (s : State) : State := { s with dcf := false }

/-! ### What the host may read between steps -/

/-- `PIX` as the flat sequence of 2048 pixels, row-major (R28, R39): entry `64 * y + x` is the pixel in column `x` of row `y`. -/
def State.displayOutput (s : State) : List Bool := s.pix.toList.flatMap fun row => row.toList

/-- `DCF` (R39). -/
def State.displayChanged (s : State) : Bool := s.dcf

/-- The audio collaborator's condition `ST > 0` (R40). -/
def State.soundOn (s : State) : Bool := s.st != 0

/-- `STATUS` (R40). -/
def State.statusOutput (s : State) : Status := s.status

/-- The numeric code of a cause (spec/60_exceptions.md R181). -/
def Cause.code : Cause → Nat
  | .unknownOpcode => 1
  | .stackOverflow => 2
  | .stackUnderflow => 3
  | .addressOutOfRange => 4
  | .keyIndexOutOfRange => 5

/-! ### Runs -/

/-- The moves R222 gives the host. Its column "assumed never to" has no move here. -/
inductive HostMove where
  | construct
  | load (source : RomSource)
  | key (k : KeyIx) (down : Bool)
  | clearDcf
  | step
deriving DecidableEq, Repr

/-- One move of the host. Only a step request runs the core. -/
def hostMove (m : HostMove) (s : State) : Result :=
  match m with
  | .construct => .next s.construct
  | .load source => .next (s.loadProgram source).1
  | .key k down => .next (s.setKey k down)
  | .clearDcf => .next s.clearDcf
  | .step => Sys2Proof.Machine.step s

end Sys2Proof.Machine
end

