-- ==== Sys2Proof/Safety.lean ====
section
/-! DEFINITION. The terms in which claims speak of good states and runs. -/

namespace Sys2Proof.Machine

/-- The machine is `Running`: "a halted state is never a good end of a run" (spec/60_exceptions.md R186). -/
def State.Running (s : State) : Prop := s.status = .running

/-- Every live stack entry, `STACK[0]` to `STACK[SP - 1]`, is the address of a fetched `2NNN`, so at most `0xFFE`
(spec/41_flow_control.md R111). -/
def State.StackInRange (s : State) : Prop := ∀ k : Fin 16, k.val < s.sp.val → s.stack[k].toNat ≤ 0xFFE

/-- `pc` is at most `0x10FE`, the largest value any instruction can give it (spec/10_state.md R24). -/
def State.PcInRange (s : State) : Prop := s.pc.toNat ≤ 0x10FE

/-- The invariant of every run: memory in its canonical form, the stack's live entries and `pc` in their ranges. -/
structure State.Inv (s : State) : Prop where
  mem_wf : Memory.wf s.mem = true
  stack_in_range : s.StackInRange
  pc_in_range : s.PcInRange

/-- When a running machine's next step raises which fatal condition, with what `info`: the table of spec/60_exceptions.md R181, in the
order of R188. -/
inductive State.HaltsBy (s : State) : Cause → Word → Prop where
  /-- The fetch needs `pc` and `pc + 1` below 4096. -/
  | fetch : 4096 ≤ s.pc.toNat + 1 → s.HaltsBy .addressOutOfRange (BitVec.ofNat 16 (max s.pc.toNat 4096))
  /-- The decode of a word that no row of the opcode map admits. -/
  | unknown : s.pc.toNat + 1 < 4096 → wellFormedWord s.fetchWord = false → s.HaltsBy .unknownOpcode s.fetchWord
  /-- `2NNN` with a full stack. -/
  | call (nnn : Addr12) : s.pc.toNat + 1 < 4096 → decodeWord s.fetchWord = some (.call nnn) → s.sp.val = 16 →
      s.HaltsBy .stackOverflow s.pc
  /-- `00EE` with an empty stack. -/
  | ret : s.pc.toNat + 1 < 4096 → decodeWord s.fetchWord = some .ret → s.sp.val = 0 → s.HaltsBy .stackUnderflow s.pc
  /-- `DXYN` with a sprite byte out of range. -/
  | drw (x y : RegIx) (n : Nibble) : s.pc.toNat + 1 < 4096 → decodeWord s.fetchWord = some (.drw x y n) → 0 < n.toNat →
      4096 ≤ s.i.toNat + n.toNat - 1 → s.HaltsBy .addressOutOfRange (BitVec.ofNat 16 (max s.i.toNat 4096))
  /-- `FX33` with a digit out of range. -/
  | ldBcd (x : RegIx) : s.pc.toNat + 1 < 4096 → decodeWord s.fetchWord = some (.ldBcd x) → 4096 ≤ s.i.toNat + 2 →
      s.HaltsBy .addressOutOfRange (BitVec.ofNat 16 (max s.i.toNat 4096))
  /-- `FX55` with a byte out of range. -/
  | storeRegs (x : RegIx) : s.pc.toNat + 1 < 4096 → decodeWord s.fetchWord = some (.storeRegs x) → 4096 ≤ s.i.toNat + x.val →
      s.HaltsBy .addressOutOfRange (BitVec.ofNat 16 (max s.i.toNat 4096))
  /-- `FX65` with a byte out of range. -/
  | loadRegs (x : RegIx) : s.pc.toNat + 1 < 4096 → decodeWord s.fetchWord = some (.loadRegs x) → 4096 ≤ s.i.toNat + x.val →
      s.HaltsBy .addressOutOfRange (BitVec.ofNat 16 (max s.i.toNat 4096))
  /-- `EX9E` with no such key. -/
  | skp (x : RegIx) : s.pc.toNat + 1 < 4096 → decodeWord s.fetchWord = some (.skp x) → 16 ≤ (s.v[x]).toNat →
      s.HaltsBy .keyIndexOutOfRange ((s.v[x]).setWidth 16)
  /-- `EXA1` with no such key. -/
  | sknp (x : RegIx) : s.pc.toNat + 1 < 4096 → decodeWord s.fetchWord = some (.sknp x) → 16 ≤ (s.v[x]).toNat →
      s.HaltsBy .keyIndexOutOfRange ((s.v[x]).setWidth 16)

/-- The condition on the state and the operands under which an instruction raises nothing, the complement of its line in R181 and R185
to R188 (spec/60_exceptions.md): an entry for `2NNN` to fill, one for `00EE` to pop, a key for `EX9E` and `EXA1` to read, every byte of a
data access below 4096. -/
def State.CanComplete (s : State) (i : Instr) : Prop :=
  match i with
  | .call _ => s.sp.val < 16
  | .ret => 0 < s.sp.val
  | .skp x | .sknp x => (s.v[x]).toNat < 16
  | .ldBcd _ => s.i.toNat + 2 < 4096
  | .storeRegs x | .loadRegs x => s.i.toNat + x.val < 4096
  | .drw _ _ n => n.toNat = 0 ∨ s.i.toNat + n.toNat ≤ 4096
  | .cls | .jp _ | .seImm _ _ | .sneImm _ _ | .seReg _ _ | .sneReg _ _ | .ldImm _ _ | .addImm _ _ | .ldReg _ _ | .orReg _ _
  | .andReg _ _ | .xorReg _ _ | .addReg _ _ | .subReg _ _ | .shr _ _ | .subnReg _ _ | .shl _ _ | .ldI _ | .jpV0 _ | .rnd _ _
  | .ldVxDt _ | .ldDtVx _ | .ldStVx _ | .ldVxKey _ | .addI _ | .ldGlyph _ => True

/-! ### Who writes what (spec/10_state.md R34, R22) -/

/-- The instruction writes `V[k]` as its destination (R34): `VX`, or `V0` to `VX` for `FX65`. -/
def writesReg (i : Instr) (k : RegIx) : Prop :=
  match i with
  | .ldImm x _ | .addImm x _ | .ldReg x _ | .orReg x _ | .andReg x _ | .xorReg x _ | .addReg x _ | .subReg x _ | .shr x _
  | .subnReg x _ | .shl x _ | .rnd x _ | .ldVxDt x | .ldVxKey x => k = x
  | .loadRegs x => k ≤ x
  | .cls | .ret | .jp _ | .call _ | .seImm _ _ | .sneImm _ _ | .seReg _ _ | .sneReg _ _ | .ldI _ | .jpV0 _ | .drw _ _ _ | .skp _
  | .sknp _ | .ldDtVx _ | .ldStVx _ | .addI _ | .ldGlyph _ | .ldBcd _ | .storeRegs _ => False

/-- The instruction writes `VF` as a flag (the table of R22). -/
def writesFlag (i : Instr) : Prop :=
  match i with
  | .addReg _ _ | .subReg _ _ | .shr _ _ | .subnReg _ _ | .shl _ _ | .drw _ _ _ | .addI _ => True
  | .cls | .ret | .jp _ | .call _ | .seImm _ _ | .sneImm _ _ | .seReg _ _ | .sneReg _ _ | .ldImm _ _ | .addImm _ _ | .ldReg _ _
  | .orReg _ _ | .andReg _ _ | .xorReg _ _ | .ldI _ | .jpV0 _ | .rnd _ _ | .skp _ | .sknp _ | .ldVxDt _ | .ldDtVx _ | .ldStVx _
  | .ldVxKey _ | .ldGlyph _ | .ldBcd _ | .storeRegs _ | .loadRegs _ => False

/-- The instruction writes memory (R34). -/
def writesMem (i : Instr) : Prop := ∃ x, i = .ldBcd x ∨ i = .storeRegs x

/-- The instruction writes `I` (R34). -/
def writesI (i : Instr) : Prop :=
  (∃ nnn, i = .ldI nnn) ∨ ∃ x, i = .addI x ∨ i = .ldGlyph x ∨ i = .storeRegs x ∨ i = .loadRegs x

/-- The instruction writes the stack and `SP` (R34). -/
def writesStack (i : Instr) : Prop := i = .ret ∨ ∃ nnn, i = .call nnn

/-- The instruction writes the pixel surface and sets `DCF` (R34). -/
def writesSurface (i : Instr) : Prop := i = .cls ∨ ∃ x y n, i = .drw x y n

/-- The instruction the machine's next step executes. -/
def State.Executes (s : State) (i : Instr) : Prop :=
  s.status = .running ∧ s.pc.toNat + 1 < 4096 ∧ decodeWord s.fetchWord = some i

/-! ### Drawing (spec/45_display.md R160, R162) -/

/-- A sprite bit of 1 lies over the pixel in column `col` of row `row` when `DXYN` runs in `s`: sprite pixel `(c, r)` is bit `7 - c` of
`MEM[I + r]` and falls on column `VX + c`, row `VY + r`, taken as integers. -/
def State.SpriteCovers (s : State) (x y : RegIx) (n : Nibble) (col : Fin 64) (row : Fin 32) : Prop :=
  ∃ r < n.toNat, ∃ c < 8, col.val = (s.v[x]).toNat + c ∧ row.val = (s.v[y]).toNat + r
    ∧ (Memory.read s.mem (s.i.toNat + r)).getLsbD (7 - c) = true

/-! ### Runs -/

/-- The states that construction and the host's moves lead to (spec/70_reset_and_hazards.md R216, R222). -/
inductive State.Reachable : State → Prop where
  | reset : State.Reachable State.reset
  | move (m : HostMove) {s t : State} : State.Reachable s → hostMove m s = .next t → State.Reachable t

end Sys2Proof.Machine
end

