-- ==== Sys2Proof/Certificates/Slice0/Obligations.lean ====
section
/-! DEFINITION. The statements for the provers. Each docstring names the rule of spec/ it formalises. Where a statement rests on a choice
the spec marks as its own (a row D<n> of spec/92_eei_decisions.md) or on a log entry of the model's, the docstring says so. -/

open Sys2Proof Sys2Proof.Machine

/-! ### Encoding (spec/30_encoding.md) -/

/-- Words the spec itself writes out (the examples of R111 to R176 and of spec/95_test_vectors.md) decode to the instructions it says. -/
def Obligations.SpecWordsDecode : Prop :=
  decodeWord 0x00E0 = some .cls ∧ decodeWord 0x00EE = some .ret ∧ decodeWord 0x2345 = some (.call 0x345)
    ∧ decodeWord 0x332A = some (.seImm 3 0x2A) ∧ decodeWord 0x8124 = some (.addReg 1 2) ∧ decodeWord 0xA2F0 = some (.ldI 0x2F0)
    ∧ decodeWord 0xC30F = some (.rnd 3 0x0F) ∧ decodeWord 0xD013 = some (.drw 0 1 3) ∧ decodeWord 0xE59E = some (.skp 5)
    ∧ decodeWord 0xF20A = some (.ldVxKey 2) ∧ decodeWord 0xF355 = some (.storeRegs 3) ∧ decodeWord 0x5121 = none

/-- R74, R75, R77: the decoder and the encoder agree. A word decodes to an instruction exactly when it is that instruction's word, so
every instruction has one word, with every operand at every value its field admits, and every word at most one meaning. -/
def Obligations.DecodeAgreesWithEncode : Prop :=
  ∀ (w : Word) (i : Instr), decodeWord w = some i ↔ encode i = w

/-- R75: "`op` is this instruction if and only if `op & mask = match`", for each of the 34 rows, against the two-level decoder of R74. -/
def Obligations.DecodeMatchesOpcodeMap : Prop :=
  ∀ (w : Word) (r : OpcodeRow), r ∈ opcodeRows.toList →
    (r.admits w = true ↔ ∃ i, decodeWord w = some i ∧ i.row = r)

/-- R78 (a) to (f): the complete list of illegal words. Items (a), (b) and (d) are the spec's own choice D9. -/
def Obligations.UnlistedWordsAreUnknown : Prop :=
  ∀ w : Word, decodeWord w = none ↔
    (w.toNat / 4096 = 0x0 ∧ w.toNat ≠ 0x00E0 ∧ w.toNat ≠ 0x00EE)
      ∨ (w.toNat / 4096 = 0x5 ∧ w.toNat % 16 ≠ 0)
      ∨ (w.toNat / 4096 = 0x8 ∧ 0x8 ≤ w.toNat % 16 ∧ w.toNat % 16 ≠ 0xE)
      ∨ (w.toNat / 4096 = 0x9 ∧ w.toNat % 16 ≠ 0)
      ∨ (w.toNat / 4096 = 0xE ∧ w.toNat % 256 ≠ 0x9E ∧ w.toNat % 256 ≠ 0xA1)
      ∨ (w.toNat / 4096 = 0xF ∧ w.toNat % 256 ∉ [0x07, 0x0A, 0x15, 0x18, 0x1E, 0x29, 0x33, 0x55, 0x65])

/-! ### Reset (spec/10_state.md R35) -/

/-- R35, R210, R191: the state after construction, item by item: of `State.reset`, and of what the host's construction makes of any
state, halted or not, so that no component of R20 survives. The values of `KEY`, `DCF` and `STACK` are the spec's own choice D17, and
`STATUS` is D2; the font bytes are the parameter `FONT` (D18, log entry 1). The model's own count of draws is kept (log entry 2) and no
part of this. -/
def Obligations.ResetState : Prop :=
  (∀ s : State, ∃ t, hostMove .construct s = .next t)
    ∧ ∀ t : State, (t = State.reset ∨ ∃ s, hostMove .construct s = .next t) →
      (∀ (a : Nat) (h : a < 80), Memory.read t.mem a = Config.font ⟨a, h⟩)
        ∧ (∀ a, 80 ≤ a → a < 4096 → Memory.read t.mem a = 0)
        ∧ (∀ k : RegIx, t.v[k] = 0) ∧ t.i = 0 ∧ t.pc = 0x200
        ∧ t.sp = 0 ∧ (∀ k : Fin 16, t.stack[k] = 0) ∧ t.dt = 0 ∧ t.st = 0
        ∧ (∀ (row : Fin 32) (col : Fin 64), (t.pix[row])[col] = false)
        ∧ (∀ k : KeyIx, t.key[k] = false) ∧ t.dcf = false ∧ t.status = .running

/-- R35, R216: a step taken before a program is loaded fetches `0x0000` and halts with `UnknownOpcode(0x0000)`. Rests on D2, D9. -/
def Obligations.EmptyMachineHalts : Prop :=
  step State.reset = .next { State.reset with status := .halted .unknownOpcode 0x0000 }

/-! ### The step (spec/40_step_cycle.md) -/

/-- R90: a running machine whose two bytes at `pc`, big-endian, decode to `i` runs `exec i`, and then the Timer Tick, which is left out
exactly when the instruction raised a fatal condition (R94; that part is the spec's own choice D2, D25). -/
def Obligations.StepRunsDecodedInstruction : Prop :=
  ∀ (s : State) (w : Word) (i : Instr), s.status = .running → s.pc.toNat + 1 < 4096 →
    w.toNat = (Memory.read s.mem s.pc.toNat).toNat * 256 + (Memory.read s.mem (s.pc.toNat + 1)).toNat →
    decodeWord w = some i →
    step s = match exec i s with
      | .next t =>
        .next (if t.status = .running then
          { t with dt := BitVec.ofNat 8 (t.dt.toNat - 1), st := BitVec.ofNat 8 (t.st.toNat - 1) } else t)
      | .fault r => .fault r
      | .refused r => .refused r

/-- The placed word is the one the next step runs, from every state (log entry 6: a halted machine is set running and a `pc` too high
for a fetch is put at `0x200`). -/
def Obligations.PlacedWordIsExecuted : Prop :=
  ∀ (s : State) (w : Nat) (i : Instr), decodeTableWord 16 w = some i →
    (s.withFetchWord 16 w).status = .running ∧ (s.withFetchWord 16 w).pc.toNat + 1 < 4096
      ∧ decodeWord (s.withFetchWord 16 w).fetchWord = some i

/-- R90, R91, R185: a fetch with a byte at 4096 or beyond raises `AddressOutOfRange`, with `pc` itself recorded when it is 4096 or more
and `0x1000` when it is `0xFFF`, and nothing but `STATUS` changes. The fatal outcome is the spec's own choice D4. -/
def Obligations.FetchPastMemoryHalts : Prop :=
  ∀ s : State, s.status = .running → 4096 ≤ s.pc.toNat + 1 →
    ∃ a : Word, a.toNat = (if 4096 ≤ s.pc.toNat then s.pc.toNat else 0x1000)
      ∧ step s = .next { s with status := .halted .addressOutOfRange a }

/-- R182: a word that no row of the opcode map admits raises `UnknownOpcode(op)`, recording the word; nothing but `STATUS` changes
(D2, D3). -/
def Obligations.IllegalWordHalts : Prop :=
  ∀ (s : State) (w : Word), s.status = .running → s.pc.toNat + 1 < 4096 →
    w.toNat = (Memory.read s.mem s.pc.toNat).toNat * 256 + (Memory.read s.mem (s.pc.toNat + 1)).toNat →
    (∀ r ∈ opcodeRows.toList, w &&& r.mask ≠ r.value) →
    step s = .next { s with status := .halted .unknownOpcode w }

/-- R31, R90, R191: once halted, any number of step requests does nothing at all. The latch is the spec's own choice D2. -/
def Obligations.HaltedMachineStaysHalted : Prop :=
  ∀ (n : Nat) (s : State) (c : Cause) (a : Word), s.status = .halted c a → core.run n s = .next s

/-- R94, R186: whatever instruction it executes, a step that raises a fatal condition changes nothing but `STATUS`. This is the
spec's own choice D2. -/
def Obligations.FatalStepChangesOnlyStatus : Prop :=
  ∀ s t : State, s.status = .running → step s = .next t → t.status ≠ .running → t = { s with status := t.status }

/-- R181, R188: exactly when a running machine's step halts it, with which cause and which `info`. Causes 4 and 5 and the `info`
values are the spec's own choice D3, D4, D5. -/
def Obligations.HaltTellsItsCause : Prop :=
  ∀ (s : State) (c : Cause) (a : Word), s.status = .running →
    (s.HaltsBy c a ↔ ∃ t, step s = .next t ∧ t.status = .halted c a)

/-- R90, R186: no step ends in a fault or a refusal; the fatal conditions of the spec are next states (log entry 5). -/
def Obligations.EveryStepAnswersANextState : Prop :=
  ∀ s : State, ∃ t, step s = .next t

/-- R98, R99: every step that does not halt lowers both timers by one, never below zero, and does so after the instruction, so that
`FX15` and `FX18` leave one less than the value they set. That no tick runs on a fatal step is the spec's own choice D25. -/
def Obligations.TimersFallOncePerStep : Prop :=
  ∀ (s t : State) (i : Instr), s.Executes i → step s = .next t → t.status = .running →
    t.dt.toNat = (match i with | .ldDtVx x => (s.v[x]).toNat | _ => s.dt.toNat) - 1
      ∧ t.st.toNat = (match i with | .ldStVx x => (s.v[x]).toNat | _ => s.st.toNat) - 1

/-- R99 (b): `FX15` immediately followed by `FX07` on the same register holding `v` reads back `v - 1`, and leaves `DT` at
`max(v - 2, 0)`. -/
def Obligations.SetThenReadDelayTimer : Prop :=
  ∀ (s t u : State) (x : RegIx), s.Executes (.ldDtVx x) → 0 < (s.v[x]).toNat → step s = .next t →
    t.Executes (.ldVxDt x) → step t = .next u →
    (u.v[x]).toNat = (s.v[x]).toNat - 1 ∧ u.dt.toNat = (s.v[x]).toNat - 2

/-- R96: the new `pc` of every instruction that does not raise: fallthrough, satisfied skip, replacement, or unchanged for `FX0A` with no
key pressed. Rests on the spec's own choices D6 (stack), D10 (`pc` not masked, modulo 65536) and D14 (`FX0A`). -/
def Obligations.ProgramCounterPolicy : Prop :=
  ∀ (i : Instr) (s t : State), s.status = .running → exec i s = .next t → t.status = .running →
    match i with
    | .cls | .ldImm _ _ | .addImm _ _ | .ldReg _ _ | .orReg _ _ | .andReg _ _ | .xorReg _ _ | .addReg _ _ | .subReg _ _ | .shr _ _
    | .subnReg _ _ | .shl _ _ | .ldI _ | .rnd _ _ | .drw _ _ _ | .ldVxDt _ | .ldDtVx _ | .ldStVx _ | .addI _ | .ldGlyph _
    | .ldBcd _ | .storeRegs _ | .loadRegs _ => t.pc = s.pc + 2
    | .seImm x nn => t.pc = if s.v[x] = nn then s.pc + 4 else s.pc + 2
    | .sneImm x nn => t.pc = if s.v[x] ≠ nn then s.pc + 4 else s.pc + 2
    | .seReg x y => t.pc = if s.v[x] = s.v[y] then s.pc + 4 else s.pc + 2
    | .sneReg x y => t.pc = if s.v[x] ≠ s.v[y] then s.pc + 4 else s.pc + 2
    | .skp x => ∃ k : KeyIx, k.val = (s.v[x]).toNat ∧ t.pc = if s.key[k] = true then s.pc + 4 else s.pc + 2
    | .sknp x => ∃ k : KeyIx, k.val = (s.v[x]).toNat ∧ t.pc = if s.key[k] = false then s.pc + 4 else s.pc + 2
    | .jp nnn | .call nnn => t.pc.toNat = nnn.toNat
    | .jpV0 nnn => t.pc.toNat = nnn.toNat + (s.v[0]).toNat
    | .ret => ∃ k : Fin 16, k.val + 1 = s.sp.val ∧ t.pc = s.stack[k] + 2
    | .ldVxKey _ => t.pc = if ∃ k : KeyIx, s.key[k] = true then s.pc + 2 else s.pc

/-! ### The whole machine -/

/-- R34, "The list is closed: a component is changed by nothing that is not in its row": what a step can change, and what each other
move of the host can change. A key write (R37) sets the key it names to the value it is given and leaves the other fifteen. The rule is
the spec's own inference from its instruction rules, `STATUS` its own choice D2, and the moment of a key write D15. -/
def Obligations.ComponentWriters : Prop :=
  (∀ s t : State, step s = .next t →
    (t.mem = s.mem ∨ ∃ i, s.Executes i ∧ writesMem i)
      ∧ (∀ k : RegIx, t.v[k] = s.v[k] ∨ ∃ i, s.Executes i ∧ (writesReg i k ∨ (k = 15 ∧ writesFlag i)))
      ∧ (t.i = s.i ∨ ∃ i, s.Executes i ∧ writesI i)
      ∧ (t.stack = s.stack ∧ t.sp = s.sp ∨ ∃ i, s.Executes i ∧ writesStack i)
      ∧ (t.dt.toNat = s.dt.toNat ∨ t.dt.toNat = s.dt.toNat - 1 ∨ ∃ x, s.Executes (.ldDtVx x))
      ∧ (t.st.toNat = s.st.toNat ∨ t.st.toNat = s.st.toNat - 1 ∨ ∃ x, s.Executes (.ldStVx x))
      ∧ (t.pix = s.pix ∨ ∃ i, s.Executes i ∧ writesSurface i)
      ∧ t.key = s.key
      ∧ (t.dcf = s.dcf ∨ t.dcf = true ∧ ∃ i, s.Executes i ∧ writesSurface i)
      ∧ (t.status = s.status ∨ s.status = .running ∧ ∃ c a, t.status = .halted c a ∧ s.HaltsBy c a))
    ∧ (∀ (s t : State) (rom : RomSource), hostMove (.load rom) s = .next t → t = { s with mem := t.mem })
    ∧ (∀ (s : State) (k : KeyIx) (down : Bool), ∃ t, hostMove (.key k down) s = .next t
        ∧ t.key[k] = down ∧ (∀ j : KeyIx, j ≠ k → t.key[j] = s.key[j]) ∧ t = { s with key := t.key })
    ∧ (∀ s : State, hostMove .clearDcf s = .next { s with dcf := false })

/-- R33, "Not at all: `ST`, `DCF`, `STATUS`": in a running machine nothing a program can observe depends on `ST` or `DCF`. Two steps
from states that differ in `ST` and `DCF` alone end in states that differ in those alone. Both steps take the same random byte `r`
(the step's input, the spec's own choice D16): the states have the same count of draws, for which the model draws one byte (DESIGN CHOICE,
log entry 2), so of `CXNN` this says no more than that equal `r` give equal results. -/
def Obligations.SoundAndDisplayFlagUnobservable : Prop :=
  ∀ (s t u : State) (st : Byte) (dcf : Bool), step s = .next t → step { s with st := st, dcf := dcf } = .next u →
    u = { t with st := u.st, dcf := u.dcf }

/-- R24, R25, R27, R111: the invariant `State.Inv` (canonical memory; live stack entries at most `0xFFE`; `pc` at most `0x10FE`) is kept
by every step from every state that meets it, reached by a run or not. Rests on the spec's own choices D6 and D10 and on log entry 4. -/
def Obligations.StepKeepsInv : Prop :=
  ∀ s t : State, s.Inv → step s = .next t → t.Inv

/-- The state after construction meets the invariant (R35; D17 for the stack; log entry 4 for the canonical form). -/
def Obligations.ResetMeetsInv : Prop := State.reset.Inv

/-- Every move of the host keeps the invariant, a step request being one of them (R222; log entry 4 for the canonical form). -/
def Obligations.HostMovesKeepInv : Prop :=
  ∀ (m : HostMove) (s t : State), s.Inv → hostMove m s = .next t → t.Inv

/-- R24, R96: from a state that meets the invariant, the 16-bit wrap of `pc` is never met. After a step that does not halt, the new `pc`
is the one R96 gives the instruction with every addition done on integers: plus 2, plus 4 for a satisfied skip, `NNN`, `NNN + V0`, the
popped address plus 2, and for `FX0A` plus 2 or unchanged. Rests on the spec's own choices D6, D10 and D14, and on log entry 4 for the
invariant's canonical form. -/
def Obligations.ProgramCounterNeverWraps : Prop :=
  ∀ (s t : State) (i : Instr), s.Inv → s.Executes i → step s = .next t → t.status = .running →
    match i with
    | .cls | .ldImm _ _ | .addImm _ _ | .ldReg _ _ | .orReg _ _ | .andReg _ _ | .xorReg _ _ | .addReg _ _ | .subReg _ _ | .shr _ _
    | .subnReg _ _ | .shl _ _ | .ldI _ | .rnd _ _ | .drw _ _ _ | .ldVxDt _ | .ldDtVx _ | .ldStVx _ | .addI _ | .ldGlyph _
    | .ldBcd _ | .storeRegs _ | .loadRegs _ => t.pc.toNat = s.pc.toNat + 2
    | .seImm x nn => t.pc.toNat = s.pc.toNat + (if s.v[x] = nn then 4 else 2)
    | .sneImm x nn => t.pc.toNat = s.pc.toNat + (if s.v[x] ≠ nn then 4 else 2)
    | .seReg x y => t.pc.toNat = s.pc.toNat + (if s.v[x] = s.v[y] then 4 else 2)
    | .sneReg x y => t.pc.toNat = s.pc.toNat + (if s.v[x] ≠ s.v[y] then 4 else 2)
    | .skp x => ∃ k : KeyIx, k.val = (s.v[x]).toNat ∧ t.pc.toNat = s.pc.toNat + (if s.key[k] = true then 4 else 2)
    | .sknp x => ∃ k : KeyIx, k.val = (s.v[x]).toNat ∧ t.pc.toNat = s.pc.toNat + (if s.key[k] = false then 4 else 2)
    | .jp nnn | .call nnn => t.pc.toNat = nnn.toNat
    | .jpV0 nnn => t.pc.toNat = nnn.toNat + (s.v[0]).toNat
    | .ret => ∃ k : Fin 16, k.val + 1 = s.sp.val ∧ t.pc.toNat = (s.stack[k]).toNat + 2
    | .ldVxKey _ => t.pc.toNat = s.pc.toNat + (if ∃ k : KeyIx, s.key[k] = true then 2 else 0)

/-- Two memories in canonical form that read alike at every address of the machine are the same data (log entry 4). -/
def Obligations.EqualReadsMakeEqualMemories : Prop :=
  ∀ m n : Memory, Memory.wf m = true → Memory.wf n = true → (∀ a < 4096, Memory.read m a = Memory.read n a) → m = n

/-- R60: stores are seen by later fetches at once. After `FX55`, the word fetched at any two addresses of the stored block is made of
the stored registers. The spec's own inference from R54 and R58. -/
def Obligations.StoredCodeIsFetched : Prop :=
  ∀ (s t : State) (x k : RegIx) (hk : k.val + 1 < 16) (pc : Word), s.i.toNat + x.val < 4096 → k.val + 1 ≤ x.val →
    exec (.storeRegs x) s = .next t → pc.toNat = s.i.toNat + k.val →
    ({ t with pc := pc }.fetchWord).toNat = (s.v[k]).toNat * 256 + (s.v[k.val + 1]).toNat

/-! ### Flow control (spec/41_flow_control.md) -/

/-- R112: `1NNN` replaces `pc` by `NNN` for every `NNN`, and changes nothing else. -/
def Obligations.JumpReplacesPc : Prop :=
  ∀ (nnn : Addr12) (s : State), (encode (.jp nnn)) &&& 0xF000#16 = 0x1000#16 ∧
    ∃ t, exec (.jp nnn) s = .next t ∧ t.pc.toNat = nnn.toNat ∧ t = { s with pc := t.pc }

/-- R114: `BNNN` jumps to `NNN + V0`, `V0` whatever `op[11:8]` is, unsigned and not masked to 12 bits; nothing else changes. That the
sum is not masked is the spec's own choice D10. -/
def Obligations.JumpAddsV0 : Prop :=
  ∀ (nnn : Addr12) (s : State), ∃ t, exec (.jpV0 nnn) s = .next t
    ∧ t.pc.toNat = nnn.toNat + (s.v[0]).toNat ∧ t = { s with pc := t.pc }

/-- R113: with fewer than 16 addresses saved, `2NNN` saves its own address at `STACK[SP]`, adds 1 to `SP` and jumps. The stack
discipline is the spec's own choice D6. -/
def Obligations.CallPushesItsAddress : Prop :=
  ∀ (nnn : Addr12) (s : State), s.sp.val < 16 → ∃ t, exec (.call nnn) s = .next t
    ∧ t.pc.toNat = nnn.toNat ∧ t.sp.val = s.sp.val + 1
    ∧ (∀ k : Fin 16, t.stack[k] = if k.val = s.sp.val then s.pc else s.stack[k])
    ∧ t = { s with pc := t.pc, sp := t.sp, stack := t.stack }

/-- R111: with an address saved, `00EE` subtracts 1 from `SP` and goes to the saved address plus 2; the entry stays in the stack (D6). -/
def Obligations.ReturnPopsAndAddsTwo : Prop :=
  ∀ (s : State) (k : Fin 16), s.sp.val = k.val + 1 → ∃ t, exec .ret s = .next t
    ∧ t.pc.toNat = ((s.stack[k]).toNat + 2) % 65536 ∧ t.sp.val = k.val ∧ t = { s with pc := t.pc, sp := t.sp }

/-- R183, R184: the 17th nested `2NNN` raises `StackOverflow(pc)` and a `00EE` with nothing saved raises `StackUnderflow(pc)`; nothing
but `STATUS` changes (D2, D3). -/
def Obligations.StackLimitsHalt : Prop :=
  (∀ (nnn : Addr12) (s : State), s.sp.val = 16 →
    exec (.call nnn) s = .next { s with status := .halted .stackOverflow s.pc })
    ∧ (∀ s : State, s.sp.val = 0 → exec .ret s = .next { s with status := .halted .stackUnderflow s.pc })

/-- R111, R113 read together: a `00EE` that ends a subroutine goes to the instruction after the `2NNN` and gives the stack pointer
back; whatever the subroutine did in between, if it left the call's entry and depth as they were. The stack discipline is the spec's own
choice D6. -/
def Obligations.ReturnGoesAfterTheCall : Prop :=
  ∀ (nnn : Addr12) (s t u w : State), s.sp.val < 16 → exec (.call nnn) s = .next t →
    u.sp = t.sp → u.stack = t.stack → exec .ret u = .next w →
    w.pc = s.pc + 2 ∧ w.sp = s.sp ∧ ∀ k : Fin 16, k.val < s.sp.val → w.stack[k] = s.stack[k]

/-! ### Skips (spec/42_skips.md, spec/46_keys_timers.md) -/

/-- R120 to R124: the four register skips write nothing but `pc`, which moves by 4 when the condition holds and by 2 when it does not. -/
def Obligations.RegisterSkips : Prop :=
  ∀ (x y : RegIx) (nn : Byte) (s : State),
    exec (.seImm x nn) s = .next { s with pc := if (s.v[x]).toNat = nn.toNat then s.pc + 4 else s.pc + 2 }
      ∧ exec (.sneImm x nn) s = .next { s with pc := if (s.v[x]).toNat = nn.toNat then s.pc + 2 else s.pc + 4 }
      ∧ exec (.seReg x y) s = .next { s with pc := if (s.v[x]).toNat = (s.v[y]).toNat then s.pc + 4 else s.pc + 2 }
      ∧ exec (.sneReg x y) s = .next { s with pc := if (s.v[x]).toNat = (s.v[y]).toNat then s.pc + 2 else s.pc + 4 }
      ∧ encode (.seImm x nn) &&& 0xF000#16 = 0x3000#16 ∧ encode (.sneImm x nn) &&& 0xF000#16 = 0x4000#16
      ∧ encode (.seReg x y) &&& 0xF00F#16 = 0x5000#16 ∧ encode (.sneReg x y) &&& 0xF00F#16 = 0x9000#16

/-- R171, R172: with a key index below 16 in `VX`, `EX9E` skips if that key is pressed and `EXA1` if it is not; nothing but `pc`
changes. That a larger index is kept out is the spec's own choice D5. -/
def Obligations.KeySkips : Prop :=
  ∀ (x : RegIx) (k : KeyIx) (s : State), (s.v[x]).toNat = k.val →
    exec (.skp x) s = .next { s with pc := if s.key[k] = true then s.pc + 4 else s.pc + 2 }
      ∧ exec (.sknp x) s = .next { s with pc := if s.key[k] = true then s.pc + 2 else s.pc + 4 }

/-- R187: with 16 or more in `VX`, both key skips raise `KeyIndexOutOfRange(VX)` and nothing but `STATUS` changes. The spec's own
choice D5. -/
def Obligations.KeyIndexPastKeysHalts : Prop :=
  ∀ (x : RegIx) (s : State), 16 ≤ (s.v[x]).toNat → ∃ a : Word, a.toNat = (s.v[x]).toNat
    ∧ exec (.skp x) s = .next { s with status := .halted .keyIndexOutOfRange a }
    ∧ exec (.sknp x) s = .next { s with status := .halted .keyIndexOutOfRange a }

/-! ### Register load and arithmetic (spec/43_alu.md) -/

/-- R131 to R136: the loads, the flagless add and the bitwise operations write `VX` and `pc` and nothing else, so never `VF` as a flag;
`VF` is a plain destination when `X = F`. -/
def Obligations.LoadsAddAndLogic : Prop :=
  ∀ (x y : RegIx) (nn : Byte) (s : State),
    exec (.ldImm x nn) s = .next { s with v := s.v.set x nn, pc := s.pc + 2 }
      ∧ exec (.addImm x nn) s
          = .next { s with v := s.v.set x (BitVec.ofNat 8 (((s.v[x]).toNat + nn.toNat) % 256)), pc := s.pc + 2 }
      ∧ exec (.ldReg x y) s = .next { s with v := s.v.set x s.v[y], pc := s.pc + 2 }
      ∧ (∀ i ∈ [Instr.orReg x y, .andReg x y, .xorReg x y], ∃ t, exec i s = .next t
          ∧ (∀ k : RegIx, k ≠ x → t.v[k] = s.v[k]) ∧ t = { s with v := t.v, pc := s.pc + 2 }
          ∧ ∀ b < 8, (t.v[x]).getLsbD b
              = match i with
                | .orReg _ _ => (s.v[x]).getLsbD b || (s.v[y]).getLsbD b
                | .andReg _ _ => (s.v[x]).getLsbD b && (s.v[y]).getLsbD b
                | _ => Bool.xor ((s.v[x]).getLsbD b) ((s.v[y]).getLsbD b))
      ∧ encode (.ldImm x nn) &&& 0xF000#16 = 0x6000#16 ∧ encode (.addImm x nn) &&& 0xF000#16 = 0x7000#16
      ∧ encode (.ldReg x y) &&& 0xF00F#16 = 0x8000#16 ∧ encode (.orReg x y) &&& 0xF00F#16 = 0x8001#16
      ∧ encode (.andReg x y) &&& 0xF00F#16 = 0x8002#16 ∧ encode (.xorReg x y) &&& 0xF00F#16 = 0x8003#16

/-- R137, for every `X` and `Y`: the sum modulo 256 in `VX` and the carry in `VF`, which is what remains when `X = F` (the order of the
two writes is the spec's own choice D7). Every other register and component is unchanged. -/
def Obligations.AddSetsCarry : Prop :=
  ∀ (x y : RegIx) (s : State), ∃ t, exec (.addReg x y) s = .next t
    ∧ (x ≠ 15 → (t.v[x]).toNat = ((s.v[x]).toNat + (s.v[y]).toNat) % 256)
    ∧ t.v[15] = (if (s.v[x]).toNat + (s.v[y]).toNat > 255 then 1 else 0)
    ∧ (∀ k : RegIx, k ≠ x → k ≠ 15 → t.v[k] = s.v[k]) ∧ t = { s with v := t.v, pc := s.pc + 2 }

/-- R138, R140, for every `X` and `Y`: the differences modulo 256 and the no-borrow flag, which is what remains when `X = F` (D7). -/
def Obligations.SubtractSetsNoBorrow : Prop :=
  ∀ (x y : RegIx) (s : State),
    (∃ t, exec (.subReg x y) s = .next t
      ∧ (x ≠ 15 → (t.v[x]).toNat = ((s.v[x]).toNat + 256 - (s.v[y]).toNat) % 256)
      ∧ t.v[15] = (if (s.v[y]).toNat ≤ (s.v[x]).toNat then 1 else 0)
      ∧ (∀ k : RegIx, k ≠ x → k ≠ 15 → t.v[k] = s.v[k]) ∧ t = { s with v := t.v, pc := s.pc + 2 })
    ∧ (∃ t, exec (.subnReg x y) s = .next t
      ∧ (x ≠ 15 → (t.v[x]).toNat = ((s.v[y]).toNat + 256 - (s.v[x]).toNat) % 256)
      ∧ t.v[15] = (if (s.v[x]).toNat ≤ (s.v[y]).toNat then 1 else 0)
      ∧ (∀ k : RegIx, k ≠ x → k ≠ 15 → t.v[k] = s.v[k]) ∧ t = { s with v := t.v, pc := s.pc + 2 })

/-- R139, R141, for every `X` and every value of the ignored field `Y`: `VX` shifted in place by one and the bit shifted out in `VF`;
with `X = F`, `8XY6` leaves 0 and `8XYE` leaves 2 or 0 by bit 7 of the old `VF` (D7). -/
def Obligations.ShiftsInPlace : Prop :=
  ∀ (x y : RegIx) (s : State),
    (∃ t, exec (.shr x y) s = .next t
      ∧ (x ≠ 15 → (t.v[x]).toNat = (s.v[x]).toNat / 2 ∧ (t.v[15]).toNat = (s.v[x]).toNat % 2)
      ∧ (x = 15 → t.v[15] = 0)
      ∧ (∀ k : RegIx, k ≠ x → k ≠ 15 → t.v[k] = s.v[k]) ∧ t = { s with v := t.v, pc := s.pc + 2 })
    ∧ (∃ t, exec (.shl x y) s = .next t
      ∧ (x ≠ 15 → (t.v[x]).toNat = 2 * (s.v[x]).toNat % 256 ∧ (t.v[15]).toNat = (s.v[x]).toNat / 128)
      ∧ (x = 15 → (t.v[15]).toNat = 2 * ((s.v[15]).toNat / 128))
      ∧ (∀ k : RegIx, k ≠ x → k ≠ 15 → t.v[k] = s.v[k]) ∧ t = { s with v := t.v, pc := s.pc + 2 })

/-- R143, the summary of the flag results for `X != F`, with its closing identities: the spec's own inference from R137 to R141. -/
def Obligations.FlagResultSummary : Prop :=
  ∀ (x y : RegIx) (s : State), x ≠ 15 →
    ∃ add sub subn shr shl : State,
      exec (.addReg x y) s = .next add ∧ exec (.subReg x y) s = .next sub ∧ exec (.subnReg x y) s = .next subn
      ∧ exec (.shr x y) s = .next shr ∧ exec (.shl x y) s = .next shl
      ∧ (add.v[x]).toNat = ((s.v[x]).toNat + (s.v[y]).toNat) % 256
      ∧ add.v[15] = (if (s.v[x]).toNat + (s.v[y]).toNat ≥ 256 then 1 else 0)
      ∧ (sub.v[x]).toNat = ((s.v[x]).toNat + 256 - (s.v[y]).toNat) % 256
      ∧ sub.v[15] = (if (s.v[x]).toNat ≥ (s.v[y]).toNat then 1 else 0)
      ∧ (subn.v[x]).toNat = ((s.v[y]).toNat + 256 - (s.v[x]).toNat) % 256
      ∧ subn.v[15] = (if (s.v[y]).toNat ≥ (s.v[x]).toNat then 1 else 0)
      ∧ (shr.v[x]).toNat = (s.v[x]).toNat / 2 ∧ (shr.v[15]).toNat = (s.v[x]).toNat % 2
      ∧ (shl.v[x]).toNat = 2 * (s.v[x]).toNat % 256 ∧ (shl.v[15]).toNat = (s.v[x]).toNat / 128
      ∧ (sub.v[15] = subn.v[15] ↔ s.v[x] = s.v[y]) ∧ (s.v[x] = s.v[y] → sub.v[15] = 1 ∧ subn.v[15] = 1)
      ∧ (add.v[x]).toNat + 256 * (add.v[15]).toNat = (s.v[x]).toNat + (s.v[y]).toNat
      ∧ 2 * (shr.v[x]).toNat + (shr.v[15]).toNat = (s.v[x]).toNat
      ∧ (shl.v[x]).toNat + 256 * (shl.v[15]).toNat = 2 * (s.v[x]).toNat

/-- R142: `CXNN` leaves the masked random byte in `VX`, so every bit that is 0 in `NN` is 0; it draws one byte and changes nothing else.
The byte is the opaque value of this draw (log entry 2), so this holds for every value of it. -/
def Obligations.RandomByteIsMasked : Prop :=
  ∀ (x : RegIx) (nn : Byte) (s : State), ∃ t, exec (.rnd x nn) s = .next t
    ∧ (∀ b < 8, (t.v[x]).getLsbD b = ((Config.randomByte s.draws).getLsbD b && nn.getLsbD b))
    ∧ (∀ k : RegIx, k ≠ x → t.v[k] = s.v[k])
    ∧ t = { s with v := t.v, pc := s.pc + 2, draws := s.draws + 1 }

/-- R100: one byte is drawn per execution of `CXNN`, and no other step draws. The input is the spec's own choice D16, the count of draws
the model's (log entry 2). -/
def Obligations.OnlyRandomDraws : Prop :=
  ∀ s t : State, step s = .next t →
    ((∃ x nn, s.Executes (.rnd x nn)) → t.draws = s.draws + 1) ∧ ((¬ ∃ x nn, s.Executes (.rnd x nn)) → t.draws = s.draws)

/-! ### Index register and memory (spec/44_index_memory.md) -/

/-- R150: `ANNN` sets `I` to `NNN` and changes nothing else but `pc`. -/
def Obligations.LoadIndexImmediate : Prop :=
  ∀ (nnn : Addr12) (s : State), encode (.ldI nnn) &&& 0xF000#16 = 0xA000#16 ∧
    ∃ t, exec (.ldI nnn) s = .next t ∧ t.i.toNat = nnn.toNat ∧ t = { s with i := t.i, pc := s.pc + 2 }

/-- R152: `FX29` sets `I` to five times the whole byte `VX`, which is not reduced to a nibble (the spec's own choice D20). -/
def Obligations.PointAtGlyph : Prop :=
  ∀ (x : RegIx) (s : State), ∃ t, exec (.ldGlyph x) s = .next t
    ∧ t.i.toNat = 5 * (s.v[x]).toNat ∧ t = { s with i := t.i, pc := s.pc + 2 }

/-- R151, for every `X`: the range flag from the unwrapped sum, and `I` plus `VX` as it reads after the flag was written, so that with
`X = F` `I` grows by the flag. The wrap and the order are the spec's own choices D8 and D7. -/
def Obligations.AddToIndexSetsRangeFlag : Prop :=
  ∀ (x : RegIx) (s : State), ∃ t, exec (.addI x) s = .next t
    ∧ t.v[15] = (if s.i.toNat + (s.v[x]).toNat > 0xFFF then 1 else 0)
    ∧ (x ≠ 15 → t.i.toNat = (s.i.toNat + (s.v[x]).toNat) % 65536)
    ∧ (x = 15 → t.i.toNat = (s.i.toNat + (if s.i.toNat + (s.v[15]).toNat > 0xFFF then 1 else 0)) % 65536)
    ∧ (∀ k : RegIx, k ≠ 15 → t.v[k] = s.v[k]) ∧ t = { s with v := t.v, i := t.i, pc := s.pc + 2 }

/-- R153: `FX33` with its three bytes in range stores the decimal digits of `VX` at `I`, `I + 1`, `I + 2`; every other byte of memory and
every other component but `pc` is unchanged, `I` included. The range check is the spec's own choice D4. -/
def Obligations.BcdStoresDigits : Prop :=
  ∀ (x : RegIx) (s : State), s.i.toNat + 2 < 4096 → ∃ t, exec (.ldBcd x) s = .next t
    ∧ (Memory.read t.mem s.i.toNat).toNat = (s.v[x]).toNat / 100
    ∧ (Memory.read t.mem (s.i.toNat + 1)).toNat = (s.v[x]).toNat / 10 % 10
    ∧ (Memory.read t.mem (s.i.toNat + 2)).toNat = (s.v[x]).toNat % 10
    ∧ (∀ a, a < s.i.toNat ∨ s.i.toNat + 3 ≤ a → Memory.read t.mem a = Memory.read s.mem a)
    ∧ t = { s with mem := t.mem, pc := s.pc + 2 }

/-- R154: `FX55` with its bytes in range stores `V0` to `VX` at `I` to `I + X` and adds `X + 1` to `I`; every other byte of memory and
every other component but `pc` is unchanged. The order of the effects is the spec's own choice D22. -/
def Obligations.StoreRegistersAdvancesIndex : Prop :=
  ∀ (x : RegIx) (s : State), s.i.toNat + x.val < 4096 → ∃ t, exec (.storeRegs x) s = .next t
    ∧ (∀ k : RegIx, k ≤ x → Memory.read t.mem (s.i.toNat + k.val) = s.v[k])
    ∧ (∀ a, a < s.i.toNat ∨ s.i.toNat + x.val < a → Memory.read t.mem a = Memory.read s.mem a)
    ∧ t.i.toNat = s.i.toNat + x.val + 1 ∧ t = { s with mem := t.mem, i := t.i, pc := s.pc + 2 }

/-- R155: `FX65` with its bytes in range loads `V0` to `VX` from `I` to `I + X` and adds `X + 1` to `I`; the registers above `VX`, memory
and every other component but `pc` are unchanged. The order of the effects is the spec's own choice D22. -/
def Obligations.LoadRegistersAdvancesIndex : Prop :=
  ∀ (x : RegIx) (s : State), s.i.toNat + x.val < 4096 → ∃ t, exec (.loadRegs x) s = .next t
    ∧ (∀ k : RegIx, t.v[k] = if k ≤ x then Memory.read s.mem (s.i.toNat + k.val) else s.v[k])
    ∧ t.i.toNat = s.i.toNat + x.val + 1 ∧ t = { s with v := t.v, i := t.i, pc := s.pc + 2 }

/-- R53, R185: `FX33`, `FX55`, `FX65` and `DXYN` with any byte at 4096 or beyond raise `AddressOutOfRange(max(I, 4096))` and change
nothing but `STATUS`. The spec's own choice D4. -/
def Obligations.DataAccessPastMemoryHalts : Prop :=
  ∀ (x y : RegIx) (n : Nibble) (s : State), ∃ a : Word, a.toNat = max s.i.toNat 4096
    ∧ (4096 ≤ s.i.toNat + 2 → exec (.ldBcd x) s = .next { s with status := .halted .addressOutOfRange a })
    ∧ (4096 ≤ s.i.toNat + x.val → exec (.storeRegs x) s = .next { s with status := .halted .addressOutOfRange a })
    ∧ (4096 ≤ s.i.toNat + x.val → exec (.loadRegs x) s = .next { s with status := .halted .addressOutOfRange a })
    ∧ (0 < n.toNat → 4096 ≤ s.i.toNat + n.toNat - 1 →
        exec (.drw x y n) s = .next { s with status := .halted .addressOutOfRange a })

/-- R157: `FX55`, then `FX65` with the same `X` from a state in which `I` was set back and the dumped bytes were left alone, whatever
the registers became in between, restores `V0` to `VX`, and both leave `I` at the initial `I` plus `X + 1`. The reading of the source's
property is the spec's own (`spec/90_conflicts.md` C9). -/
def Obligations.DumpLoadRoundTrip : Prop :=
  ∀ (x : RegIx) (s t u w : State), s.i.toNat + x.val < 4096 → exec (.storeRegs x) s = .next t → u.i = s.i →
    (∀ k : RegIx, k ≤ x → Memory.read u.mem (s.i.toNat + k.val) = Memory.read t.mem (s.i.toNat + k.val)) →
    exec (.loadRegs x) u = .next w →
    (∀ k : RegIx, k ≤ x → w.v[k] = s.v[k]) ∧ t.i.toNat = s.i.toNat + x.val + 1 ∧ w.i.toNat = s.i.toNat + x.val + 1

/-! ### Display (spec/45_display.md) -/

/-- R161: `00E0` sets every pixel to 0 and `DCF` to true, whatever they were, and changes nothing else but `pc`. That `DCF` is set also
when no pixel changed is the spec's own choice D13. -/
def Obligations.ClearScreen : Prop :=
  ∀ s : State, encode .cls = 0x00E0#16 ∧ ∃ t, exec .cls s = .next t
    ∧ (∀ (row : Fin 32) (col : Fin 64), (t.pix[row])[col] = false)
    ∧ t = { s with pix := t.pix, dcf := true, pc := s.pc + 2 }

/-- R162, R163: `DXYN` with its sprite bytes in range (or none) flips exactly the pixels under a sprite bit of 1, with no wrap, sets
`VF` to 1 exactly when such a pixel was set before, sets `DCF`, and changes nothing else but `pc`, `I` and memory included. The
coordinates are those before `VF` is written, also when `X = F` or `Y = F`. Clipping per coordinate is the spec's own choice D12, the
sprite geometry D11, the flags D13. -/
def Obligations.DrawXorsSprite : Prop :=
  ∀ (x y : RegIx) (n : Nibble) (s : State), n.toNat = 0 ∨ s.i.toNat + n.toNat ≤ 4096 → ∃ t, exec (.drw x y n) s = .next t
    ∧ (∀ (row : Fin 32) (col : Fin 64),
        (t.pix[row])[col] = true ↔ ((s.pix[row])[col] = true ∧ ¬ s.SpriteCovers x y n col row)
          ∨ ((s.pix[row])[col] = false ∧ s.SpriteCovers x y n col row))
    ∧ ((∃ (row : Fin 32) (col : Fin 64), (s.pix[row])[col] = true ∧ s.SpriteCovers x y n col row) → t.v[15] = 1)
    ∧ ((¬ ∃ (row : Fin 32) (col : Fin 64), (s.pix[row])[col] = true ∧ s.SpriteCovers x y n col row) → t.v[15] = 0)
    ∧ (∀ k : RegIx, k ≠ 15 → t.v[k] = s.v[k])
    ∧ t = { s with pix := t.pix, v := t.v, dcf := true, pc := s.pc + 2 }

/-- R164, first half: the same `DXYN` executed twice in a row, with the same coordinates, `I` and bytes, leaves the pixel surface as it
was. A first draw that writes `VF` over a coordinate it used (`X = F` or `Y = F`) is the case the premises on `t` leave out. Rests on
D11, D12. -/
def Obligations.DrawTwiceRestoresSurface : Prop :=
  ∀ (x y : RegIx) (n : Nibble) (s t u : State), exec (.drw x y n) s = .next t → t.v[x] = s.v[x] → t.v[y] = s.v[y] →
    exec (.drw x y n) t = .next u → u.pix = s.pix

/-- R164, second half: after `00E0` a first draw leaves `VF = 0`, and the identical second draw leaves `VF = 1` when the sprite has a
1 bit that was not dropped and `VF = 0` when it drew nothing. Rests on D11, D12. -/
def Obligations.ClearThenDrawTwiceFlags : Prop :=
  ∀ (x y : RegIx) (n : Nibble) (s c t u : State), n.toNat = 0 ∨ s.i.toNat + n.toNat ≤ 4096 →
    exec .cls s = .next c → exec (.drw x y n) c = .next t → t.v[x] = s.v[x] → t.v[y] = s.v[y] →
    exec (.drw x y n) t = .next u →
    t.v[15] = 0 ∧ ((∃ (row : Fin 32) (col : Fin 64), s.SpriteCovers x y n col row) → u.v[15] = 1)
      ∧ ((¬ ∃ (row : Fin 32) (col : Fin 64), s.SpriteCovers x y n col row) → u.v[15] = 0)

/-! ### Keys and timers (spec/46_keys_timers.md) -/

/-- R173 to R175: the timer moves copy a byte and change nothing else but `pc`, so never `VF` as a flag; and what the Timer Tick of the
same step leaves. -/
def Obligations.TimerMoves : Prop :=
  ∀ (x : RegIx) (s : State),
    (∃ t, exec (.ldVxDt x) s = .next t ∧ t.v[x] = s.dt ∧ (∀ k : RegIx, k ≠ x → t.v[k] = s.v[k])
      ∧ t = { s with v := t.v, pc := s.pc + 2 })
    ∧ exec (.ldDtVx x) s = .next { s with dt := s.v[x], pc := s.pc + 2 }
    ∧ exec (.ldStVx x) s = .next { s with st := s.v[x], pc := s.pc + 2 }
    ∧ (s.Executes (.ldVxDt x) → ∃ t, step s = .next t ∧ t.v[x] = s.dt ∧ t.dt.toNat = (t.v[x]).toNat - 1)
    ∧ (s.Executes (.ldDtVx x) → ∃ t, step s = .next t ∧ t.dt.toNat = (s.v[x]).toNat - 1)
    ∧ (s.Executes (.ldStVx x) → ∃ t, step s = .next t ∧ t.st.toNat = (s.v[x]).toNat - 1)
    ∧ encode (.ldVxDt x) &&& 0xF0FF#16 = 0xF007#16 ∧ encode (.ldDtVx x) &&& 0xF0FF#16 = 0xF015#16
    ∧ encode (.ldStVx x) &&& 0xF0FF#16 = 0xF018#16

/-- R176, a key pressed: `FX0A` leaves the largest pressed index in `VX` and changes nothing else but `pc`; the keys are not written (the
level-sensitive reading is the spec's own choice D14). -/
def Obligations.KeyWaitTakesHighestKey : Prop :=
  ∀ (x : RegIx) (k : KeyIx) (s : State), s.key[k] = true → (∀ j : KeyIx, k < j → s.key[j] = false) →
    ∃ t, exec (.ldVxKey x) s = .next t ∧ (t.v[x]).toNat = k.val ∧ (∀ j : RegIx, j ≠ x → t.v[j] = s.v[j])
      ∧ t = { s with v := t.v, pc := s.pc + 2 }

/-- R176, R98, no key pressed: a step that executes `FX0A` leaves everything as it was but the timers, which fall, and the next step
executes the same instruction. That the tick runs on a waiting step is the spec's own choice D25, the level-sensitive wait D14. -/
def Obligations.KeyWaitRepeats : Prop :=
  ∀ (x : RegIx) (s : State), s.Executes (.ldVxKey x) → (∀ k : KeyIx, s.key[k] = false) → ∃ t, step s = .next t
    ∧ t.dt.toNat = s.dt.toNat - 1 ∧ t.st.toNat = s.st.toNat - 1 ∧ t = { s with dt := t.dt, st := t.st }
    ∧ t.Executes (.ldVxKey x)

/-! ### The Loader and the host (spec/70_reset_and_hazards.md) -/

/-- R214: a ROM of at most 3584 bytes is copied to `0x200` up; every other byte of memory and every other component is unchanged, on a
machine that has run as on a fresh one (the spec's own choice D23). -/
def Obligations.LoaderCopiesRom : Prop :=
  ∀ (s : State) (rom : List Byte), rom.length ≤ 3584 →
    (s.loadProgram (.bytes rom)).2 = none
      ∧ (∀ (k : Nat) (h : k < rom.length), Memory.read (s.loadProgram (.bytes rom)).1.mem (0x200 + k) = rom[k])
      ∧ (∀ a, a < 0x200 ∨ 0x200 + rom.length ≤ a →
          Memory.read (s.loadProgram (.bytes rom)).1.mem a = Memory.read s.mem a)
      ∧ (s.loadProgram (.bytes rom)).1 = { s with mem := (s.loadProgram (.bytes rom)).1.mem }

/-- R215: a longer ROM fails with `RomTooLarge`, and a failure of the collaborator that supplies the bytes is handed on; either way the
machine is as if the load was never called. -/
def Obligations.LoaderErrorsChangeNothing : Prop :=
  ∀ s : State, (∀ rom : List Byte, 3584 < rom.length → s.loadProgram (.bytes rom) = (s, some .romTooLarge))
    ∧ s.loadProgram .failed = (s, some .retrievalFailed)

/-- R28, R39: the display output is the flat sequence of 2048 pixels, row-major: entry `64 * y + x` is the pixel in column `x` of
row `y`. -/
def Obligations.DisplayOutputIsRowMajor : Prop :=
  ∀ s : State, s.displayOutput.length = 2048
    ∧ ∀ (row : Fin 32) (col : Fin 64), s.displayOutput[64 * row.val + col.val]? = some (s.pix[row])[col]

/-! ### Completion (spec/60_exceptions.md) -/

/-- R181, R186, R188: exactly where each of the 34 instructions completes. Where its own condition holds (for the 25 instructions that
raise nothing, everywhere) `exec` answers a next state that raised nothing; where it does not, a next state in which `STATUS` alone
changed. That `FX0A` also counts as completed while it waits is R95. The conditions are the spec's own choices D4, D5, D6, the latch D2. -/
def Obligations.InstructionsCompleteUnlessTheyRaise : Prop :=
  ∀ (i : Instr) (s : State),
    (s.CanComplete i → ∃ t, exec i s = .next t ∧ t.status = s.status)
      ∧ (¬ s.CanComplete i → ∃ c a, exec i s = .next { s with status := .halted c a })
end

