-- ==== Sys2Proof/Laws/Decode.lean ====
section
/-! SUPPORT. The fields of R72 read back from the layouts of R71 (spec/30_encoding.md), and the masks of R75 on them. -/

namespace Sys2Proof

@[simp] theorem fieldF_formatA (f : BitVec 4) (nnn : Addr12) : fieldF (formatA f nnn) = f := by
  ext k hk
  simp only [fieldF, formatA, BitVec.append_eq, BitVec.getElem_extractLsb', BitVec.getLsbD_append]
  rw [if_neg (by omega)]
  simp [BitVec.getLsbD_eq_getElem hk]

@[simp] theorem fieldNNN_formatA (f : BitVec 4) (nnn : Addr12) : fieldNNN (formatA f nnn) = nnn := by
  ext k hk
  simp only [fieldNNN, formatA, BitVec.append_eq, BitVec.getElem_extractLsb', BitVec.getLsbD_append]
  rw [if_pos (by omega)]
  simp [BitVec.getLsbD_eq_getElem hk]

@[simp] theorem fieldF_formatXI (f : BitVec 4) (x : RegIx) (nn : Byte) : fieldF (formatXI f x nn) = f :=
  fieldF_formatA f _

@[simp] theorem fieldF_formatXY (f : BitVec 4) (x y : RegIx) (n : Nibble) : fieldF (formatXY f x y n) = f :=
  fieldF_formatA f _

@[simp] theorem fieldNN_formatXI (f : BitVec 4) (x : RegIx) (nn : Byte) : fieldNN (formatXI f x nn) = nn := by
  ext k hk
  simp only [fieldNN, formatXI, BitVec.append_eq, BitVec.getElem_extractLsb', BitVec.getLsbD_append]
  rw [if_pos (by omega), if_pos (by omega)]
  simp [BitVec.getLsbD_eq_getElem hk]

@[simp] theorem fieldX_formatXI (f : BitVec 4) (x : RegIx) (nn : Byte) : fieldX (formatXI f x nn) = x := by
  have h : (formatXI f x nn).extractLsb' 8 4 = BitVec.ofFin x := by
    ext k hk
    simp only [formatXI, BitVec.append_eq, BitVec.getElem_extractLsb', BitVec.getLsbD_append]
    rw [if_pos (by omega), if_neg (by omega)]
    simp [BitVec.getLsbD_eq_getElem hk]
  rw [fieldX, h]

@[simp] theorem fieldX_formatXY (f : BitVec 4) (x y : RegIx) (n : Nibble) : fieldX (formatXY f x y n) = x :=
  fieldX_formatXI f x _

@[simp] theorem fieldNN_formatXY (f : BitVec 4) (x y : RegIx) (n : Nibble) :
    fieldNN (formatXY f x y n) = BitVec.append (BitVec.ofFin y : BitVec 4) n :=
  fieldNN_formatXI f x _

@[simp] theorem fieldY_formatXY (f : BitVec 4) (x y : RegIx) (n : Nibble) : fieldY (formatXY f x y n) = y := by
  have h : (formatXY f x y n).extractLsb' 4 4 = BitVec.ofFin y := by
    ext k hk
    simp only [formatXY, BitVec.append_eq, BitVec.getElem_extractLsb', BitVec.getLsbD_append]
    rw [if_pos (by omega), if_pos (by omega), if_neg (by omega)]
    simp [BitVec.getLsbD_eq_getElem hk]
  rw [fieldY, h]

@[simp] theorem fieldN_formatXY (f : BitVec 4) (x y : RegIx) (n : Nibble) : fieldN (formatXY f x y n) = n := by
  ext k hk
  simp only [fieldN, formatXY, BitVec.append_eq, BitVec.getElem_extractLsb', BitVec.getLsbD_append]
  rw [if_pos (by omega), if_pos (by omega), if_pos (by omega)]
  simp [BitVec.getLsbD_eq_getElem hk]

/-- A word is its family and its low 12 bits. -/
theorem formatA_fields (w : Word) : formatA (fieldF w) (fieldNNN w) = w := by
  refine BitVec.eq_of_getLsbD_eq fun k hk => ?_
  simp only [fieldF, fieldNNN, formatA, BitVec.append_eq, BitVec.getLsbD_append, BitVec.getLsbD_extractLsb']
  split
  · next h => simp [h]
  · have h1 : 12 + (k - 12) = k := by omega
    have h2 : k - 12 < 4 := by omega
    simp [h1, h2]

/-- A word is its family, its `X` and its low byte. -/
theorem formatXI_fields (w : Word) : formatXI (fieldF w) (fieldX w) (fieldNN w) = w := by
  have h : BitVec.append (BitVec.ofFin (fieldX w) : BitVec 4) (fieldNN w) = fieldNNN w := by
    ext k hk
    simp only [fieldX, fieldNN, fieldNNN, BitVec.append_eq, BitVec.getElem_append, BitVec.getElem_extractLsb', BitVec.ofFin_toFin]
    split
    · rfl
    · have : 8 + (k - 8) = k := by omega
      simp [this]
  rw [formatXI, h]
  exact formatA_fields w

/-- A word is its family, its `X`, its `Y` and its low nibble. -/
theorem formatXY_fields (w : Word) : formatXY (fieldF w) (fieldX w) (fieldY w) (fieldN w) = w := by
  have h : BitVec.append (BitVec.ofFin (fieldY w) : BitVec 4) (fieldN w) = fieldNN w := by
    ext k hk
    simp only [fieldY, fieldN, fieldNN, BitVec.append_eq, BitVec.getElem_append, BitVec.getElem_extractLsb', BitVec.ofFin_toFin]
    split
    · rfl
    · have : 4 + (k - 4) = k := by omega
      simp [this]
  rw [formatXY, h]
  exact formatXI_fields w

/-- The bytes of a word, put together again, are the word (spec/20_memory.md R54). -/
theorem wordOfBytes_bytes (w : Word) : wordOfBytes (highByte w) (lowByte w) = w := by
  refine BitVec.eq_of_getLsbD_eq fun k hk => ?_
  simp only [wordOfBytes, highByte, lowByte, BitVec.append_eq, BitVec.getLsbD_append, BitVec.getLsbD_extractLsb']
  split
  · next h => simp [h]
  · have h1 : 8 + (k - 8) = k := by omega
    have h2 : k - 8 < 8 := by omega
    simp [h1, h2]

/-- Big-endian: the first byte counts 256 (spec/20_memory.md R54). -/
theorem wordOfBytes_toNat (hi lo : Byte) : (wordOfBytes hi lo).toNat = hi.toNat * 256 + lo.toNat := by
  have := lo.isLt
  rw [wordOfBytes, BitVec.append_eq, BitVec.toNat_append, ← Nat.shiftLeft_add_eq_or_of_lt this, Nat.shiftLeft_eq]

end Sys2Proof
end

