-- ==== Sys2Proof/Laws/State.lean ====
section
/-! SUPPORT. One lemma per field of `State` and per update, so that no later proof unfolds a record update. -/

namespace Sys2Proof.Machine

/-! `State.setReg` -/

@[simp] theorem State.setReg_mem (s : State) (x : RegIx) (b : Byte) : (s.setReg x b).mem = s.mem := rfl
@[simp] theorem State.setReg_v (s : State) (x : RegIx) (b : Byte) : (s.setReg x b).v = s.v.set x b := rfl
@[simp] theorem State.setReg_i (s : State) (x : RegIx) (b : Byte) : (s.setReg x b).i = s.i := rfl
@[simp] theorem State.setReg_pc (s : State) (x : RegIx) (b : Byte) : (s.setReg x b).pc = s.pc := rfl
@[simp] theorem State.setReg_stack (s : State) (x : RegIx) (b : Byte) : (s.setReg x b).stack = s.stack := rfl
@[simp] theorem State.setReg_sp (s : State) (x : RegIx) (b : Byte) : (s.setReg x b).sp = s.sp := rfl
@[simp] theorem State.setReg_dt (s : State) (x : RegIx) (b : Byte) : (s.setReg x b).dt = s.dt := rfl
@[simp] theorem State.setReg_st (s : State) (x : RegIx) (b : Byte) : (s.setReg x b).st = s.st := rfl
@[simp] theorem State.setReg_pix (s : State) (x : RegIx) (b : Byte) : (s.setReg x b).pix = s.pix := rfl
@[simp] theorem State.setReg_key (s : State) (x : RegIx) (b : Byte) : (s.setReg x b).key = s.key := rfl
@[simp] theorem State.setReg_dcf (s : State) (x : RegIx) (b : Byte) : (s.setReg x b).dcf = s.dcf := rfl
@[simp] theorem State.setReg_status (s : State) (x : RegIx) (b : Byte) : (s.setReg x b).status = s.status := rfl
@[simp] theorem State.setReg_draws (s : State) (x : RegIx) (b : Byte) : (s.setReg x b).draws = s.draws := rfl

/-! `State.setFlag` -/

@[simp] theorem State.setFlag_mem (s : State) (b : Byte) : (s.setFlag b).mem = s.mem := rfl
@[simp] theorem State.setFlag_v (s : State) (b : Byte) : (s.setFlag b).v = s.v.set 15 b := rfl
@[simp] theorem State.setFlag_i (s : State) (b : Byte) : (s.setFlag b).i = s.i := rfl
@[simp] theorem State.setFlag_pc (s : State) (b : Byte) : (s.setFlag b).pc = s.pc := rfl
@[simp] theorem State.setFlag_stack (s : State) (b : Byte) : (s.setFlag b).stack = s.stack := rfl
@[simp] theorem State.setFlag_sp (s : State) (b : Byte) : (s.setFlag b).sp = s.sp := rfl
@[simp] theorem State.setFlag_dt (s : State) (b : Byte) : (s.setFlag b).dt = s.dt := rfl
@[simp] theorem State.setFlag_st (s : State) (b : Byte) : (s.setFlag b).st = s.st := rfl
@[simp] theorem State.setFlag_pix (s : State) (b : Byte) : (s.setFlag b).pix = s.pix := rfl
@[simp] theorem State.setFlag_key (s : State) (b : Byte) : (s.setFlag b).key = s.key := rfl
@[simp] theorem State.setFlag_dcf (s : State) (b : Byte) : (s.setFlag b).dcf = s.dcf := rfl
@[simp] theorem State.setFlag_status (s : State) (b : Byte) : (s.setFlag b).status = s.status := rfl
@[simp] theorem State.setFlag_draws (s : State) (b : Byte) : (s.setFlag b).draws = s.draws := rfl

/-! `State.setI` -/

@[simp] theorem State.setI_mem (s : State) (w : Word) : (s.setI w).mem = s.mem := rfl
@[simp] theorem State.setI_v (s : State) (w : Word) : (s.setI w).v = s.v := rfl
@[simp] theorem State.setI_i (s : State) (w : Word) : (s.setI w).i = w := rfl
@[simp] theorem State.setI_pc (s : State) (w : Word) : (s.setI w).pc = s.pc := rfl
@[simp] theorem State.setI_stack (s : State) (w : Word) : (s.setI w).stack = s.stack := rfl
@[simp] theorem State.setI_sp (s : State) (w : Word) : (s.setI w).sp = s.sp := rfl
@[simp] theorem State.setI_dt (s : State) (w : Word) : (s.setI w).dt = s.dt := rfl
@[simp] theorem State.setI_st (s : State) (w : Word) : (s.setI w).st = s.st := rfl
@[simp] theorem State.setI_pix (s : State) (w : Word) : (s.setI w).pix = s.pix := rfl
@[simp] theorem State.setI_key (s : State) (w : Word) : (s.setI w).key = s.key := rfl
@[simp] theorem State.setI_dcf (s : State) (w : Word) : (s.setI w).dcf = s.dcf := rfl
@[simp] theorem State.setI_status (s : State) (w : Word) : (s.setI w).status = s.status := rfl
@[simp] theorem State.setI_draws (s : State) (w : Word) : (s.setI w).draws = s.draws := rfl

/-! `State.jump` -/

@[simp] theorem State.jump_mem (s : State) (w : Word) : (s.jump w).mem = s.mem := rfl
@[simp] theorem State.jump_v (s : State) (w : Word) : (s.jump w).v = s.v := rfl
@[simp] theorem State.jump_i (s : State) (w : Word) : (s.jump w).i = s.i := rfl
@[simp] theorem State.jump_pc (s : State) (w : Word) : (s.jump w).pc = w := rfl
@[simp] theorem State.jump_stack (s : State) (w : Word) : (s.jump w).stack = s.stack := rfl
@[simp] theorem State.jump_sp (s : State) (w : Word) : (s.jump w).sp = s.sp := rfl
@[simp] theorem State.jump_dt (s : State) (w : Word) : (s.jump w).dt = s.dt := rfl
@[simp] theorem State.jump_st (s : State) (w : Word) : (s.jump w).st = s.st := rfl
@[simp] theorem State.jump_pix (s : State) (w : Word) : (s.jump w).pix = s.pix := rfl
@[simp] theorem State.jump_key (s : State) (w : Word) : (s.jump w).key = s.key := rfl
@[simp] theorem State.jump_dcf (s : State) (w : Word) : (s.jump w).dcf = s.dcf := rfl
@[simp] theorem State.jump_status (s : State) (w : Word) : (s.jump w).status = s.status := rfl
@[simp] theorem State.jump_draws (s : State) (w : Word) : (s.jump w).draws = s.draws := rfl

/-! `State.advance` -/

@[simp] theorem State.advance_mem (s : State) : (s.advance).mem = s.mem := rfl
@[simp] theorem State.advance_v (s : State) : (s.advance).v = s.v := rfl
@[simp] theorem State.advance_i (s : State) : (s.advance).i = s.i := rfl
@[simp] theorem State.advance_pc (s : State) : (s.advance).pc = s.pc + 2 := rfl
@[simp] theorem State.advance_stack (s : State) : (s.advance).stack = s.stack := rfl
@[simp] theorem State.advance_sp (s : State) : (s.advance).sp = s.sp := rfl
@[simp] theorem State.advance_dt (s : State) : (s.advance).dt = s.dt := rfl
@[simp] theorem State.advance_st (s : State) : (s.advance).st = s.st := rfl
@[simp] theorem State.advance_pix (s : State) : (s.advance).pix = s.pix := rfl
@[simp] theorem State.advance_key (s : State) : (s.advance).key = s.key := rfl
@[simp] theorem State.advance_dcf (s : State) : (s.advance).dcf = s.dcf := rfl
@[simp] theorem State.advance_status (s : State) : (s.advance).status = s.status := rfl
@[simp] theorem State.advance_draws (s : State) : (s.advance).draws = s.draws := rfl

/-! `State.skipIf` -/

@[simp] theorem State.skipIf_mem (s : State) (c : Bool) : (s.skipIf c).mem = s.mem := by cases c <;> rfl
@[simp] theorem State.skipIf_v (s : State) (c : Bool) : (s.skipIf c).v = s.v := by cases c <;> rfl
@[simp] theorem State.skipIf_i (s : State) (c : Bool) : (s.skipIf c).i = s.i := by cases c <;> rfl
@[simp] theorem State.skipIf_pc (s : State) (c : Bool) : (s.skipIf c).pc = if c then s.pc + 4 else s.pc + 2 := by cases c <;> rfl
@[simp] theorem State.skipIf_stack (s : State) (c : Bool) : (s.skipIf c).stack = s.stack := by cases c <;> rfl
@[simp] theorem State.skipIf_sp (s : State) (c : Bool) : (s.skipIf c).sp = s.sp := by cases c <;> rfl
@[simp] theorem State.skipIf_dt (s : State) (c : Bool) : (s.skipIf c).dt = s.dt := by cases c <;> rfl
@[simp] theorem State.skipIf_st (s : State) (c : Bool) : (s.skipIf c).st = s.st := by cases c <;> rfl
@[simp] theorem State.skipIf_pix (s : State) (c : Bool) : (s.skipIf c).pix = s.pix := by cases c <;> rfl
@[simp] theorem State.skipIf_key (s : State) (c : Bool) : (s.skipIf c).key = s.key := by cases c <;> rfl
@[simp] theorem State.skipIf_dcf (s : State) (c : Bool) : (s.skipIf c).dcf = s.dcf := by cases c <;> rfl
@[simp] theorem State.skipIf_status (s : State) (c : Bool) : (s.skipIf c).status = s.status := by cases c <;> rfl
@[simp] theorem State.skipIf_draws (s : State) (c : Bool) : (s.skipIf c).draws = s.draws := by cases c <;> rfl

/-! `State.loadBlock` -/

@[simp] theorem State.loadBlock_mem (s : State) (a : Nat) (x : RegIx) : (s.loadBlock a x).mem = s.mem := rfl
@[simp] theorem State.loadBlock_v (s : State) (a : Nat) (x : RegIx) : (s.loadBlock a x).v = Vector.ofFn fun k : Fin 16 => if k ≤ x then Memory.read s.mem (a + k.val) else s.v[k] := rfl
@[simp] theorem State.loadBlock_i (s : State) (a : Nat) (x : RegIx) : (s.loadBlock a x).i = s.i := rfl
@[simp] theorem State.loadBlock_pc (s : State) (a : Nat) (x : RegIx) : (s.loadBlock a x).pc = s.pc := rfl
@[simp] theorem State.loadBlock_stack (s : State) (a : Nat) (x : RegIx) : (s.loadBlock a x).stack = s.stack := rfl
@[simp] theorem State.loadBlock_sp (s : State) (a : Nat) (x : RegIx) : (s.loadBlock a x).sp = s.sp := rfl
@[simp] theorem State.loadBlock_dt (s : State) (a : Nat) (x : RegIx) : (s.loadBlock a x).dt = s.dt := rfl
@[simp] theorem State.loadBlock_st (s : State) (a : Nat) (x : RegIx) : (s.loadBlock a x).st = s.st := rfl
@[simp] theorem State.loadBlock_pix (s : State) (a : Nat) (x : RegIx) : (s.loadBlock a x).pix = s.pix := rfl
@[simp] theorem State.loadBlock_key (s : State) (a : Nat) (x : RegIx) : (s.loadBlock a x).key = s.key := rfl
@[simp] theorem State.loadBlock_dcf (s : State) (a : Nat) (x : RegIx) : (s.loadBlock a x).dcf = s.dcf := rfl
@[simp] theorem State.loadBlock_status (s : State) (a : Nat) (x : RegIx) : (s.loadBlock a x).status = s.status := rfl
@[simp] theorem State.loadBlock_draws (s : State) (a : Nat) (x : RegIx) : (s.loadBlock a x).draws = s.draws := rfl

/-! `State.tick` -/

@[simp] theorem State.tick_mem (s : State) : (s.tick).mem = s.mem := rfl
@[simp] theorem State.tick_v (s : State) : (s.tick).v = s.v := rfl
@[simp] theorem State.tick_i (s : State) : (s.tick).i = s.i := rfl
@[simp] theorem State.tick_pc (s : State) : (s.tick).pc = s.pc := rfl
@[simp] theorem State.tick_stack (s : State) : (s.tick).stack = s.stack := rfl
@[simp] theorem State.tick_sp (s : State) : (s.tick).sp = s.sp := rfl
@[simp] theorem State.tick_dt (s : State) : (s.tick).dt = tickTimer s.dt := rfl
@[simp] theorem State.tick_st (s : State) : (s.tick).st = tickTimer s.st := rfl
@[simp] theorem State.tick_pix (s : State) : (s.tick).pix = s.pix := rfl
@[simp] theorem State.tick_key (s : State) : (s.tick).key = s.key := rfl
@[simp] theorem State.tick_dcf (s : State) : (s.tick).dcf = s.dcf := rfl
@[simp] theorem State.tick_status (s : State) : (s.tick).status = s.status := rfl
@[simp] theorem State.tick_draws (s : State) : (s.tick).draws = s.draws := rfl

/-! `State.setKey` -/

@[simp] theorem State.setKey_mem (s : State) (k : KeyIx) (down : Bool) : (s.setKey k down).mem = s.mem := rfl
@[simp] theorem State.setKey_v (s : State) (k : KeyIx) (down : Bool) : (s.setKey k down).v = s.v := rfl
@[simp] theorem State.setKey_i (s : State) (k : KeyIx) (down : Bool) : (s.setKey k down).i = s.i := rfl
@[simp] theorem State.setKey_pc (s : State) (k : KeyIx) (down : Bool) : (s.setKey k down).pc = s.pc := rfl
@[simp] theorem State.setKey_stack (s : State) (k : KeyIx) (down : Bool) : (s.setKey k down).stack = s.stack := rfl
@[simp] theorem State.setKey_sp (s : State) (k : KeyIx) (down : Bool) : (s.setKey k down).sp = s.sp := rfl
@[simp] theorem State.setKey_dt (s : State) (k : KeyIx) (down : Bool) : (s.setKey k down).dt = s.dt := rfl
@[simp] theorem State.setKey_st (s : State) (k : KeyIx) (down : Bool) : (s.setKey k down).st = s.st := rfl
@[simp] theorem State.setKey_pix (s : State) (k : KeyIx) (down : Bool) : (s.setKey k down).pix = s.pix := rfl
@[simp] theorem State.setKey_key (s : State) (k : KeyIx) (down : Bool) : (s.setKey k down).key = s.key.set k down := rfl
@[simp] theorem State.setKey_dcf (s : State) (k : KeyIx) (down : Bool) : (s.setKey k down).dcf = s.dcf := rfl
@[simp] theorem State.setKey_status (s : State) (k : KeyIx) (down : Bool) : (s.setKey k down).status = s.status := rfl
@[simp] theorem State.setKey_draws (s : State) (k : KeyIx) (down : Bool) : (s.setKey k down).draws = s.draws := rfl

/-! `State.clearDcf` -/

@[simp] theorem State.clearDcf_mem (s : State) : (s.clearDcf).mem = s.mem := rfl
@[simp] theorem State.clearDcf_v (s : State) : (s.clearDcf).v = s.v := rfl
@[simp] theorem State.clearDcf_i (s : State) : (s.clearDcf).i = s.i := rfl
@[simp] theorem State.clearDcf_pc (s : State) : (s.clearDcf).pc = s.pc := rfl
@[simp] theorem State.clearDcf_stack (s : State) : (s.clearDcf).stack = s.stack := rfl
@[simp] theorem State.clearDcf_sp (s : State) : (s.clearDcf).sp = s.sp := rfl
@[simp] theorem State.clearDcf_dt (s : State) : (s.clearDcf).dt = s.dt := rfl
@[simp] theorem State.clearDcf_st (s : State) : (s.clearDcf).st = s.st := rfl
@[simp] theorem State.clearDcf_pix (s : State) : (s.clearDcf).pix = s.pix := rfl
@[simp] theorem State.clearDcf_key (s : State) : (s.clearDcf).key = s.key := rfl
@[simp] theorem State.clearDcf_dcf (s : State) : (s.clearDcf).dcf = false := rfl
@[simp] theorem State.clearDcf_status (s : State) : (s.clearDcf).status = s.status := rfl
@[simp] theorem State.clearDcf_draws (s : State) : (s.clearDcf).draws = s.draws := rfl

@[simp] theorem State.draw_fst (s : State) : s.draw.1 = Config.randomByte s.draws := rfl

@[simp] theorem State.draw_snd (s : State) : s.draw.2 = { s with draws := s.draws + 1 } := rfl

end Sys2Proof.Machine
end

