-- ==== Sys2Proof/Laws/Ops.lean ====
section
/-! SUPPORT. For each shared operation, one lemma that says everything it can do. -/

namespace Sys2Proof.Machine

/-! ### Fatal conditions and range checks -/

/-- The entry of a fatal condition is a next state that differs in `STATUS` alone (spec/60_exceptions.md R186). -/
theorem raise_eq_next {c : Cause} {a : Word} {s t : State} :
    raise c a s = .next t ↔ t = { s with status := .halted c a } := by
  simp only [raise, Host.Outcome.next.injEq]
  exact eq_comm

/-- The range check passes exactly when every byte lies below 4096. -/
theorem firstOutOfRange_none {base : Word} {count : Nat} :
    firstOutOfRange base count = none ↔ count = 0 ∨ base.toNat + count ≤ 4096 := by
  unfold firstOutOfRange
  split <;> simp <;> omega

/-- The range check names the lowest offending address (spec/60_exceptions.md R185). -/
theorem firstOutOfRange_some {base a : Word} {count : Nat} :
    firstOutOfRange base count = some a
      ↔ 0 < count ∧ 4096 < base.toNat + count ∧ a = BitVec.ofNat 16 (max base.toNat 4096) := by
  unfold firstOutOfRange
  split
  · next h =>
    simp only [Option.some.injEq]
    exact ⟨fun e => ⟨h.1, by omega, e.symm⟩, fun e => e.2.2.symm⟩
  · next h =>
    simp only [reduceCtorEq, false_iff]
    omega

/-- An access whose bytes all exist goes through. -/
theorem withBytes_of_inRange {base : Word} {count : Nat} {s : State} {r : Result}
    (h : count = 0 ∨ base.toNat + count ≤ 4096) : withBytes base count s r = r := by
  simp [withBytes, firstOutOfRange_none.mpr h]

/-- An access with a byte at 4096 or beyond raises, and does nothing else. -/
theorem withBytes_of_outOfRange {base : Word} {count : Nat} {s : State} {r : Result}
    (h0 : 0 < count) (h : 4096 < base.toNat + count) :
    withBytes base count s r = raise .addressOutOfRange (BitVec.ofNat 16 (max base.toNat 4096)) s := by
  simp [withBytes, firstOutOfRange_some.mpr ⟨h0, h, rfl⟩]

/-- Everything a checked access can do. -/
theorem withBytes_cases (base : Word) (count : Nat) (s : State) (r : Result) :
    ((count = 0 ∨ base.toNat + count ≤ 4096) ∧ withBytes base count s r = r)
      ∨ (0 < count ∧ 4096 < base.toNat + count
          ∧ withBytes base count s r = raise .addressOutOfRange (BitVec.ofNat 16 (max base.toNat 4096)) s) := by
  by_cases h : count = 0 ∨ base.toNat + count ≤ 4096
  · exact .inl ⟨h, withBytes_of_inRange h⟩
  · exact .inr ⟨by omega, by omega, withBytes_of_outOfRange (by omega) (by omega)⟩

/-! ### The stack -/

theorem State.push_of_lt {s : State} {w : Word} (h : s.sp.val < 16) :
    s.push w = some { s with stack := s.stack.set s.sp.val w h, sp := ⟨s.sp.val + 1, by omega⟩ } := by
  simp [State.push, h]

theorem State.push_full {s : State} {w : Word} (h : s.sp.val = 16) : s.push w = none := by
  simp [State.push, h]

theorem State.pop_of_pos {s : State} (h : s.sp.val ≠ 0) :
    s.pop = some (s.stack[s.sp.val - 1]'(by omega), { s with sp := ⟨s.sp.val - 1, by omega⟩ }) := by
  simp [State.pop, h]

theorem State.pop_empty {s : State} (h : s.sp.val = 0) : s.pop = none := by
  simp [State.pop, h]

/-- Everything a push can do. -/
theorem State.push_eq_some {s t : State} {w : Word} :
    s.push w = some t
      ↔ ∃ h : s.sp.val < 16,
          t = { s with stack := s.stack.set s.sp.val w h, sp := ⟨s.sp.val + 1, by omega⟩ } := by
  by_cases h : s.sp.val < 16
  · rw [State.push_of_lt h, Option.some.injEq]
    exact ⟨fun e => ⟨h, e.symm⟩, fun ⟨_, e⟩ => e.symm⟩
  · rw [State.push_full (by omega)]
    simp [h]

/-- Everything a pop can do. -/
theorem State.pop_eq_some {s t : State} {w : Word} :
    s.pop = some (w, t)
      ↔ ∃ _ : s.sp.val ≠ 0,
          w = s.stack[s.sp.val - 1]'(by omega) ∧ t = { s with sp := ⟨s.sp.val - 1, by omega⟩ } := by
  by_cases h : s.sp.val = 0
  · rw [State.pop_empty h]
    simp [h]
  · rw [State.pop_of_pos h, Option.some.injEq, Prod.mk.injEq]
    exact ⟨fun e => ⟨h, e.1.symm, e.2.symm⟩, fun ⟨_, e1, e2⟩ => ⟨e1.symm, e2.symm⟩⟩

/-! ### Registers and flags -/

/-- `resultThenFlag` always completes; when `X = F` the flag is what remains (spec/40_step_cycle.md R97). -/
theorem resultThenFlag_eq (x : RegIx) (result flag : Byte) (s : State) :
    resultThenFlag x result flag s
      = .next { s with v := (s.v.set x result).set 15 flag, pc := s.pc + 2 } := rfl

/-- `flagThenUpdate` always completes; when `X = F` the flag is what the update reads (spec/40_step_cycle.md R97). -/
theorem flagThenUpdate_eq (x : RegIx) (flag : Byte) (f : Byte → Byte) (s : State) :
    flagThenUpdate x flag f s
      = .next { s with v := (s.v.set 15 flag).set x (f ((s.v.set 15 flag)[x])), pc := s.pc + 2 } := rfl

theorem flagByte_toNat (c : Bool) : (flagByte c).toNat = if c then 1 else 0 := by cases c <;> rfl

/-! ### Keys -/

/-- A key index below 16 reads that key; a larger one raises (spec/60_exceptions.md R187). -/
theorem withKey_cases (x : RegIx) (s : State) (k : Bool → Result) :
    (∃ h : (s.v[x]).toNat < 16, withKey x s k = k (s.key[(s.v[x]).toNat]))
      ∨ (16 ≤ (s.v[x]).toNat ∧ withKey x s k = raise .keyIndexOutOfRange ((s.v[x]).setWidth 16) s) := by
  by_cases h : (s.v[x]).toNat < 16
  · exact .inl ⟨h, dif_pos h⟩
  · exact .inr ⟨by omega, dif_neg h⟩

theorem mem_keysDescending (k : KeyIx) : k ∈ keysDescending := by decide +revert

/-- No key is found exactly when none is pressed. -/
theorem State.highestKey_none {s : State} : s.highestKey = none ↔ ∀ k : KeyIx, s.key[k] = false := by
  simp only [State.highestKey, List.find?_eq_none, Bool.not_eq_true]
  exact ⟨fun h k => h k (mem_keysDescending k), fun h k _ => h k⟩

/-! ### Drawing -/

/-- One sprite pixel changes at most the pixel under it, by exclusive or (spec/45_display.md R162). -/
theorem drawPixel_pixel (bit : Bool) (x y : Nat) (acc : Surface × Bool) (r : Fin 32) (c : Fin 64) :
    ((drawPixel bit x y acc).1[r])[c]
      = Bool.xor ((acc.1[r])[c]) (bit && decide (c.val = x) && decide (r.val = y)) := by
  obtain ⟨pix, col⟩ := acc
  unfold drawPixel
  cases bit with
  | false => simp
  | true =>
    by_cases h : x < 64 ∧ y < 32
    · by_cases hy : y = r.val
      · by_cases hx : x = c.val
        · simp [hy, hx]
        · have hx' : ¬ c.val = x := fun e => hx e.symm
          simp [h, hy, hx, hx']
      · have hy' : ¬ r.val = y := fun e => hy e.symm
        simp [h, hy, hy']
    · have hxy : ¬ (c.val = x ∧ r.val = y) := by omega
      have : (decide (c.val = x) && decide (r.val = y)) = false := by simpa using hxy
      simp [h, this]

/-- One sprite pixel collides exactly when it falls on a pixel that was set (spec/45_display.md R162). -/
theorem drawPixel_collision (bit : Bool) (x y : Nat) (acc : Surface × Bool) :
    (drawPixel bit x y acc).2 = true
      ↔ acc.2 = true ∨ (bit = true ∧ ∃ (r : Fin 32) (c : Fin 64), c.val = x ∧ r.val = y ∧ (acc.1[r])[c] = true) := by
  obtain ⟨pix, col⟩ := acc
  unfold drawPixel
  cases bit with
  | false => simp
  | true =>
    by_cases h : x < 64 ∧ y < 32
    · simp only [if_true, h, and_self, dif_pos, Bool.or_eq_true, true_and]
      refine or_congr Iff.rfl ⟨fun e => ⟨⟨y, h.2⟩, ⟨x, h.1⟩, rfl, rfl, e⟩, ?_⟩
      rintro ⟨r, c, rfl, rfl, e⟩
      exact e
    · simp only [if_true, h, dif_neg, not_false_eq_true, true_and]
      refine ⟨.inl, ?_⟩
      rintro (e | ⟨r, c, rfl, rfl, -⟩)
      · exact e
      · exact absurd ⟨c.isLt, r.isLt⟩ h

/-- Sprite pixels of one row at distinct columns: each pixel under a set bit is flipped, and a collision is a set bit over a set pixel
of the surface as it was at the start (spec/45_display.md R163 (g)). -/
theorem drawColumns (b : Byte) (x0 y : Nat) (cols : List Nat) (hn : cols.Nodup) (acc : Surface × Bool) :
    let out := cols.foldl (fun acc col => drawPixel (b.getLsbD (7 - col)) (x0 + col) y acc) acc
    (∀ (r : Fin 32) (c : Fin 64), (out.1[r])[c] = true
        ↔ Xor ((acc.1[r])[c] = true) (∃ j ∈ cols, c.val = x0 + j ∧ r.val = y ∧ b.getLsbD (7 - j) = true))
      ∧ (out.2 = true ↔ acc.2 = true ∨ ∃ j ∈ cols, b.getLsbD (7 - j) = true
          ∧ ∃ (r : Fin 32) (c : Fin 64), c.val = x0 + j ∧ r.val = y ∧ (acc.1[r])[c] = true) := by
  induction cols generalizing acc with
  | nil => simp [Xor]
  | cons j cols ih =>
    have hj : j ∉ cols := (List.nodup_cons.mp hn).1
    obtain ⟨ihp, ihc⟩ := ih (List.nodup_cons.mp hn).2 (drawPixel (b.getLsbD (7 - j)) (x0 + j) y acc)
    refine ⟨fun r c => ?_, ?_⟩
    · rw [List.foldl_cons, ihp, drawPixel_pixel]
      by_cases hcj : c.val = x0 + j ∧ r.val = y
      · have hno : ¬ ∃ k ∈ cols, c.val = x0 + k ∧ r.val = y ∧ b.getLsbD (7 - k) = true := by
          rintro ⟨k, hk, hck, -⟩
          have : k = j := by omega
          exact hj (this ▸ hk)
        have hyes : (∃ k ∈ j :: cols, c.val = x0 + k ∧ r.val = y ∧ b.getLsbD (7 - k) = true)
            ↔ b.getLsbD (7 - j) = true := by
          constructor
          · rintro ⟨k, -, hck, -, hb⟩
            have : k = j := by omega
            exact this ▸ hb
          · exact fun hb => ⟨j, by simp, hcj.1, hcj.2, hb⟩
        rw [hyes, eq_false hno, decide_eq_true hcj.1, decide_eq_true hcj.2]
        cases (acc.1[r])[c] <;> cases b.getLsbD (7 - j) <;> simp [Xor]
      · have hd : (b.getLsbD (7 - j) && decide (c.val = x0 + j) && decide (r.val = y)) = false := by
          by_cases h1 : c.val = x0 + j
          · have : ¬ r.val = y := fun e => hcj ⟨h1, e⟩
            simp [this]
          · simp [h1]
        rw [hd, Bool.xor_false]
        have : (∃ k ∈ j :: cols, c.val = x0 + k ∧ r.val = y ∧ b.getLsbD (7 - k) = true)
            ↔ ∃ k ∈ cols, c.val = x0 + k ∧ r.val = y ∧ b.getLsbD (7 - k) = true := by
          simp only [List.mem_cons, exists_eq_or_imp, or_iff_right_iff_imp]
          exact fun h => absurd ⟨h.1, h.2.1⟩ hcj
        rw [this]
    · rw [List.foldl_cons, ihc, drawPixel_collision]
      have hrest : (∃ k ∈ cols, b.getLsbD (7 - k) = true ∧ ∃ (r : Fin 32) (c : Fin 64), c.val = x0 + k ∧ r.val = y
            ∧ ((drawPixel (b.getLsbD (7 - j)) (x0 + j) y acc).1[r])[c] = true)
          ↔ ∃ k ∈ cols, b.getLsbD (7 - k) = true ∧ ∃ (r : Fin 32) (c : Fin 64), c.val = x0 + k ∧ r.val = y
            ∧ (acc.1[r])[c] = true := by
        refine exists_congr fun k => and_congr_right fun hk => and_congr_right fun _ => exists_congr fun r =>
          exists_congr fun c => and_congr_right fun hc => and_congr_right fun _ => ?_
        have hck : ¬ c.val = x0 + j := by
          intro e
          have : k = j := by omega
          exact hj (this ▸ hk)
        rw [drawPixel_pixel]
        simp [hck]
      rw [hrest]
      simp only [List.mem_cons, exists_eq_or_imp]
      exact or_assoc

/-- One sprite row (spec/45_display.md R160, R162). -/
theorem drawRow_spec (b : Byte) (x0 y : Nat) (acc : Surface × Bool) :
    (∀ (r : Fin 32) (c : Fin 64), ((drawRow b x0 y acc).1[r])[c] = true
        ↔ Xor ((acc.1[r])[c] = true) (∃ j < 8, c.val = x0 + j ∧ r.val = y ∧ b.getLsbD (7 - j) = true))
      ∧ ((drawRow b x0 y acc).2 = true ↔ acc.2 = true ∨ ∃ j < 8, b.getLsbD (7 - j) = true
          ∧ ∃ (r : Fin 32) (c : Fin 64), c.val = x0 + j ∧ r.val = y ∧ (acc.1[r])[c] = true) := by
  have hm : ∀ j, j ∈ [0, 1, 2, 3, 4, 5, 6, 7] ↔ j < 8 := by intro j; simp; omega
  have h := drawColumns b x0 y [0, 1, 2, 3, 4, 5, 6, 7] (by decide) acc
  simp only [hm] at h
  exact h

/-- A sprite (spec/45_display.md R162, R163): the pixel in column `c` of row `r` is flipped exactly when a sprite bit of 1 lies over it,
and there is a collision exactly when such a pixel was set before. -/
theorem drawSprite_spec (bs : List Byte) (x0 y0 : Nat) (acc : Surface × Bool) :
    (∀ (r : Fin 32) (c : Fin 64), ((drawSprite bs x0 y0 acc).1[r])[c] = true
        ↔ Xor ((acc.1[r])[c] = true)
          (∃ (k : Nat) (hk : k < bs.length), ∃ j < 8, c.val = x0 + j ∧ r.val = y0 + k ∧ bs[k].getLsbD (7 - j) = true))
      ∧ ((drawSprite bs x0 y0 acc).2 = true ↔ acc.2 = true
          ∨ ∃ (k : Nat) (hk : k < bs.length), ∃ j < 8, bs[k].getLsbD (7 - j) = true
            ∧ ∃ (r : Fin 32) (c : Fin 64), c.val = x0 + j ∧ r.val = y0 + k ∧ (acc.1[r])[c] = true) := by
  induction bs generalizing y0 acc with
  | nil => simp [drawSprite, Xor]
  | cons b bs ih =>
    obtain ⟨rowp, rowc⟩ := drawRow_spec b x0 y0 acc
    obtain ⟨ihp, ihc⟩ := ih (y0 + 1) (drawRow b x0 y0 acc)
    refine ⟨fun r c => ?_, ?_⟩
    · rw [drawSprite, ihp, rowp]
      by_cases hr : r.val = y0
      · have hno : ¬ ∃ (k : Nat) (hk : k < bs.length), ∃ j < 8,
            c.val = x0 + j ∧ r.val = y0 + 1 + k ∧ bs[k].getLsbD (7 - j) = true := by
          rintro ⟨k, hk, j, -, -, h, -⟩
          omega
        have hthis : (∃ (k : Nat) (hk : k < (b :: bs).length), ∃ j < 8,
              c.val = x0 + j ∧ r.val = y0 + k ∧ (b :: bs)[k].getLsbD (7 - j) = true)
            ↔ ∃ j < 8, c.val = x0 + j ∧ r.val = y0 ∧ b.getLsbD (7 - j) = true := by
          constructor
          · rintro ⟨k, hk, j, hj, hc, hrk, hb⟩
            have : k = 0 := by omega
            subst this
            exact ⟨j, hj, hc, hr, hb⟩
          · rintro ⟨j, hj, hc, -, hb⟩
            exact ⟨0, by simp, j, hj, hc, by omega, hb⟩
        rw [hthis]
        simp [hno, Xor]
      · have hno : ¬ ∃ j < 8, c.val = x0 + j ∧ r.val = y0 ∧ b.getLsbD (7 - j) = true := by
          rintro ⟨j, -, -, h, -⟩
          exact hr h
        have hthis : (∃ (k : Nat) (hk : k < (b :: bs).length), ∃ j < 8,
              c.val = x0 + j ∧ r.val = y0 + k ∧ (b :: bs)[k].getLsbD (7 - j) = true)
            ↔ ∃ (k : Nat) (hk : k < bs.length), ∃ j < 8,
              c.val = x0 + j ∧ r.val = y0 + 1 + k ∧ bs[k].getLsbD (7 - j) = true := by
          constructor
          · rintro ⟨k, hk, j, hj, hc, hrk, hb⟩
            cases k with
            | zero => exact absurd (by omega) hr
            | succ k => exact ⟨k, by simpa using hk, j, hj, hc, by omega, by simpa using hb⟩
          · rintro ⟨k, hk, j, hj, hc, hrk, hb⟩
            exact ⟨k + 1, by simpa using hk, j, hj, hc, by omega, by simpa using hb⟩
        rw [hthis]
        simp [hno, Xor]
    · rw [drawSprite, ihc, rowc]
      have hrest : (∃ (k : Nat) (hk : k < bs.length), ∃ j < 8, bs[k].getLsbD (7 - j) = true
            ∧ ∃ (r : Fin 32) (c : Fin 64), c.val = x0 + j ∧ r.val = y0 + 1 + k
              ∧ ((drawRow b x0 y0 acc).1[r])[c] = true)
          ↔ ∃ (k : Nat) (hk : k < bs.length), ∃ j < 8, bs[k].getLsbD (7 - j) = true
            ∧ ∃ (r : Fin 32) (c : Fin 64), c.val = x0 + j ∧ r.val = y0 + 1 + k ∧ (acc.1[r])[c] = true := by
        refine exists_congr fun k => exists_congr fun hk => exists_congr fun j => and_congr_right fun _ =>
          and_congr_right fun _ => exists_congr fun r => exists_congr fun c => and_congr_right fun _ =>
          and_congr_right fun hr => ?_
        have hno : ¬ ∃ j < 8, c.val = x0 + j ∧ r.val = y0 ∧ b.getLsbD (7 - j) = true := by
          rintro ⟨j, -, -, h, -⟩
          omega
        rw [rowp]
        simp [hno, Xor]
      rw [hrest, or_assoc]
      refine or_congr Iff.rfl ?_
      constructor
      · rintro (⟨j, hj, hb, r, c, hc, hr, h⟩ | ⟨k, hk, j, hj, hb, r, c, hc, hr, h⟩)
        · exact ⟨0, by simp, j, hj, hb, r, c, hc, by omega, h⟩
        · exact ⟨k + 1, by simpa using hk, j, hj, by simpa using hb, r, c, hc, by omega, h⟩
      · rintro ⟨k, hk, j, hj, hb, r, c, hc, hr, h⟩
        cases k with
        | zero => exact .inl ⟨j, hj, by simpa using hb, r, c, hc, by omega, h⟩
        | succ k => exact .inr ⟨k, by simpa using hk, j, hj, by simpa using hb, r, c, hc, by omega, h⟩

/-! ### Steps -/

/-- Everything the end of a step can do. -/
theorem State.endStep_cases (s : State) :
    (s.status = .running ∧ s.endStep = s.tick) ∨ (s.status ≠ .running ∧ s.endStep = s) := by
  unfold State.endStep
  cases h : s.status <;> simp

theorem tickTimer_toNat (b : Byte) : (tickTimer b).toNat = b.toNat - 1 := by
  unfold tickTimer
  split
  · next h => simp [h]
  · next h =>
    have : b.toNat ≠ 0 := fun e => h (BitVec.eq_of_toNat_eq (by simpa using e))
    have := b.isLt
    rw [BitVec.toNat_sub]
    simp
    omega

/-- Everything a step can do (spec/40_step_cycle.md R90): nothing when halted; the fetch's fatal condition; the decode's; or the
instruction, and then the end of the step. -/
theorem step_cases (s : State) :
    (s.status ≠ .running ∧ step s = .next s)
      ∨ (s.status = .running ∧ 4094 < s.pc.toNat
          ∧ step s = raise .addressOutOfRange (BitVec.ofNat 16 (max s.pc.toNat 4096)) s)
      ∨ (s.status = .running ∧ s.pc.toNat ≤ 4094 ∧ decodeWord s.fetchWord = none
          ∧ step s = raise .unknownOpcode s.fetchWord s)
      ∨ (s.status = .running ∧ s.pc.toNat ≤ 4094
          ∧ ∃ i, decodeWord s.fetchWord = some i
              ∧ step s = (match exec i s with
                  | .next s' => .next s'.endStep
                  | .fault r => .fault r
                  | .refused r => .refused r)) := by
  cases hs : s.status with
  | halted c a => exact .inl ⟨by simp, by simp [step, hs]⟩
  | running =>
    right
    by_cases hpc : s.pc.toNat ≤ 4094
    · right
      cases hd : decodeWord s.fetchWord with
      | none =>
        refine .inl ⟨rfl, hpc, rfl, ?_⟩
        simp only [step, hs]
        rw [withBytes_of_inRange (.inr (by omega))]
        simp only [hd]
      | some i =>
        refine .inr ⟨rfl, hpc, i, rfl, ?_⟩
        simp only [step, hs]
        rw [withBytes_of_inRange (.inr (by omega))]
        simp only [hd]
        try rfl
    · refine .inl ⟨rfl, by omega, ?_⟩
      simp only [step, hs]
      exact withBytes_of_outOfRange (by omega) (by omega)

end Sys2Proof.Machine
end

