-- ==== Sys2Proof/Laws/Exec.lean ====
section
/-! SUPPORT. Everything an instruction can do, said once: for each instruction that can raise, its two outcomes; for all of them, that
they raise a fatal condition or answer a next state that differs only in the components of their row of spec/10_state.md R34. -/

namespace Sys2Proof.Machine

/-! ### The instructions that can raise -/

/-- What `00EE` can do (spec/41_flow_control.md R111). -/
theorem exec_ret_cases (s : State) :
    (s.sp.val = 0 ∧ exec .ret s = raise .stackUnderflow s.pc s)
      ∨ ∃ _ : s.sp.val ≠ 0, exec .ret s
          = .next ({ s with sp := ⟨s.sp.val - 1, by omega⟩ }.jump (s.stack[s.sp.val - 1]'(by omega) + 2)) := by
  by_cases h : s.sp.val = 0
  · exact .inl ⟨h, by simp only [exec, execRet, State.pop_empty h]⟩
  · exact .inr ⟨h, by simp only [exec, execRet, State.pop_of_pos h]⟩

/-- What `2NNN` can do (R113). -/
theorem exec_call_cases (nnn : Addr12) (s : State) :
    (s.sp.val = 16 ∧ exec (.call nnn) s = raise .stackOverflow s.pc s)
      ∨ ∃ h : s.sp.val < 16, exec (.call nnn) s
          = .next ({ s with stack := s.stack.set s.sp.val s.pc h, sp := ⟨s.sp.val + 1, by omega⟩ }.jump (zextAddr nnn)) := by
  by_cases h : s.sp.val < 16
  · exact .inr ⟨h, by simp only [exec, execCall, State.push_of_lt h]⟩
  · have h' : s.sp.val = 16 := by omega
    exact .inl ⟨h', by simp only [exec, execCall, State.push_full h']⟩

/-- What `FX33` can do (spec/44_index_memory.md R153). -/
theorem exec_ldBcd_cases (x : RegIx) (s : State) :
    (s.i.toNat + 2 < 4096 ∧ exec (.ldBcd x) s
        = .next { s with mem := Memory.writeBytes s.mem s.i.toNat (bcdDigits (s.v[x])) }.advance)
      ∨ (4096 ≤ s.i.toNat + 2
          ∧ exec (.ldBcd x) s = raise .addressOutOfRange (BitVec.ofNat 16 (max s.i.toNat 4096)) s) := by
  rcases withBytes_cases s.i 3 s
    (.next { s with mem := Memory.writeBytes s.mem s.i.toNat (bcdDigits (s.v[x])) }.advance) with ⟨h, he⟩ | ⟨-, h, he⟩
  · exact .inl ⟨by omega, he⟩
  · exact .inr ⟨by omega, he⟩

/-- What `FX55` can do (R154). -/
theorem exec_storeRegs_cases (x : RegIx) (s : State) :
    (s.i.toNat + x.val < 4096 ∧ exec (.storeRegs x) s
        = .next ({ s with mem := Memory.writeBytes s.mem s.i.toNat (s.block x) }.setI
            (s.i + BitVec.ofNat 16 (x.val + 1))).advance)
      ∨ (4096 ≤ s.i.toNat + x.val
          ∧ exec (.storeRegs x) s = raise .addressOutOfRange (BitVec.ofNat 16 (max s.i.toNat 4096)) s) := by
  rcases withBytes_cases s.i (x.val + 1) s
    (.next ({ s with mem := Memory.writeBytes s.mem s.i.toNat (s.block x) }.setI
      (s.i + BitVec.ofNat 16 (x.val + 1))).advance) with ⟨h, he⟩ | ⟨-, h, he⟩
  · exact .inl ⟨by omega, he⟩
  · exact .inr ⟨by omega, he⟩

/-- What `FX65` can do (R155). -/
theorem exec_loadRegs_cases (x : RegIx) (s : State) :
    (s.i.toNat + x.val < 4096 ∧ exec (.loadRegs x) s
        = .next ((s.loadBlock s.i.toNat x).setI (s.i + BitVec.ofNat 16 (x.val + 1))).advance)
      ∨ (4096 ≤ s.i.toNat + x.val
          ∧ exec (.loadRegs x) s = raise .addressOutOfRange (BitVec.ofNat 16 (max s.i.toNat 4096)) s) := by
  rcases withBytes_cases s.i (x.val + 1) s
    (.next ((s.loadBlock s.i.toNat x).setI (s.i + BitVec.ofNat 16 (x.val + 1))).advance) with ⟨h, he⟩ | ⟨-, h, he⟩
  · exact .inl ⟨by omega, he⟩
  · exact .inr ⟨by omega, he⟩

/-- What `DXYN` draws: the surface after it, and whether there was a collision (spec/45_display.md R162). -/
abbrev State.drawn (s : State) (x y : RegIx) (n : Nibble) : Surface × Bool :=
  drawSprite (s.spriteBytes n) (s.v[x]).toNat (s.v[y]).toNat (s.pix, false)

/-- What `DXYN` can do (R162). -/
theorem exec_drw_cases (x y : RegIx) (n : Nibble) (s : State) :
    ((n.toNat = 0 ∨ s.i.toNat + n.toNat ≤ 4096) ∧ exec (.drw x y n) s
        = .next ({ s with pix := (s.drawn x y n).1, dcf := true }.setFlag (flagByte (s.drawn x y n).2)).advance)
      ∨ (0 < n.toNat ∧ 4096 ≤ s.i.toNat + n.toNat - 1
          ∧ exec (.drw x y n) s = raise .addressOutOfRange (BitVec.ofNat 16 (max s.i.toNat 4096)) s) := by
  rcases withBytes_cases s.i n.toNat s
    (.next ({ s with pix := (s.drawn x y n).1, dcf := true }.setFlag (flagByte (s.drawn x y n).2)).advance)
    with ⟨h, he⟩ | ⟨h0, h, he⟩
  · exact .inl ⟨by omega, he⟩
  · exact .inr ⟨h0, by omega, he⟩

/-- What `EX9E` can do (spec/46_keys_timers.md R171). -/
theorem exec_skp_cases (x : RegIx) (s : State) :
    (∃ h : (s.v[x]).toNat < 16, exec (.skp x) s = .next (s.skipIf (s.key[(s.v[x]).toNat])))
      ∨ (16 ≤ (s.v[x]).toNat ∧ exec (.skp x) s = raise .keyIndexOutOfRange ((s.v[x]).setWidth 16) s) :=
  withKey_cases x s fun pressed => .next (s.skipIf pressed)

/-- What `EXA1` can do (R172). -/
theorem exec_sknp_cases (x : RegIx) (s : State) :
    (∃ h : (s.v[x]).toNat < 16, exec (.sknp x) s = .next (s.skipIf !(s.key[(s.v[x]).toNat])))
      ∨ (16 ≤ (s.v[x]).toNat ∧ exec (.sknp x) s = raise .keyIndexOutOfRange ((s.v[x]).setWidth 16) s) :=
  withKey_cases x s fun pressed => .next (s.skipIf !pressed)

/-- What `FX0A` can do (R176). -/
theorem exec_ldVxKey_cases (x : RegIx) (s : State) :
    (∃ k : KeyIx, s.highestKey = some k ∧ exec (.ldVxKey x) s = .next (s.setReg x (BitVec.ofNat 8 k.val)).advance)
      ∨ (s.highestKey = none ∧ exec (.ldVxKey x) s = .next s) := by
  cases h : s.highestKey with
  | some k => exact .inl ⟨k, rfl, by simp only [exec, execLdVxKey, h]⟩
  | none => exact .inr ⟨rfl, by simp only [exec, execLdVxKey, h]⟩

/-! ### All instructions -/

/-- A register write leaves every other register as it was. -/
theorem Regs.set_or (v : Regs) (x : RegIx) (b : Byte) (k : RegIx) : (v.set x b)[k] = v[k] ∨ k = x := by
  by_cases h : k = x
  · exact .inr h
  · left
    have : x.val ≠ k.val := fun e => h (Fin.ext e.symm)
    simp [this]

/-- Two results are the same next state exactly when the states are. -/
theorem next_inj {s t : State} : (Host.Outcome.next s : Result) = .next t ↔ s = t := by simp

/-- What a next state that raised nothing may differ in (spec/10_state.md R34). -/
structure KeepsRow (ins : Instr) (s t : State) : Prop where
  status : t.status = s.status
  key : t.key = s.key
  mem : t.mem = s.mem ∨ writesMem ins
  v : ∀ k : RegIx, t.v[k] = s.v[k] ∨ writesReg ins k ∨ (k = 15 ∧ writesFlag ins)
  i : t.i = s.i ∨ writesI ins
  stack : t.stack = s.stack ∧ t.sp = s.sp ∨ writesStack ins
  dt : t.dt = s.dt ∨ ∃ x, ins = .ldDtVx x
  st : t.st = s.st ∨ ∃ x, ins = .ldStVx x
  pix : t.pix = s.pix ∨ writesSurface ins
  dcf : t.dcf = s.dcf ∨ t.dcf = true ∧ writesSurface ins
  draws : t.draws = s.draws ∨ ∃ x nn, ins = .rnd x nn

/-- An instruction that writes nothing but `pc`. -/
theorem KeepsRow.pcOnly (i : Instr) (s : State) (w : Word) : KeepsRow i s (s.jump w) := by
  constructor <;> simp

/-- An instruction that writes nothing but one destination register and `pc`, and maybe draws. -/
theorem KeepsRow.oneReg {i : Instr} {x : RegIx} (hi : ∀ k, k = x → writesReg i k) (s : State) (b : Byte) (w : Word) :
    KeepsRow i s ((s.setReg x b).jump w) := by
  constructor <;> try simp
  exact fun k => (Regs.set_or s.v x b k).imp id fun h => .inl (hi k h)

/-- An instruction that writes a destination register and the flag, in either order, and `pc`. -/
theorem KeepsRow.regAndFlag {i : Instr} {x : RegIx} (hi : ∀ k, k = x → writesReg i k) (hf : writesFlag i) (s : State)
    (b f : Byte) (w : Word) :
    KeepsRow i s (((s.setReg x b).setFlag f).jump w) ∧ KeepsRow i s (((s.setFlag f).setReg x b).jump w) := by
  constructor
  · constructor <;> try simp
    intro k
    rcases Regs.set_or (s.v.set x b) 15 f k with h | h
    · exact (Regs.set_or s.v x b k).imp (fun h' => h.trans h') fun h' => .inl (hi k h')
    · exact .inr (.inr ⟨h, hf⟩)
  · constructor <;> try simp
    intro k
    rcases Regs.set_or (s.v.set 15 f) x b k with h | h
    · exact (Regs.set_or s.v 15 f k).imp (fun h' => h.trans h') fun h' => .inr ⟨h', hf⟩
    · exact .inr (.inl (hi k h))

/-- Everything an instruction can do. -/
theorem exec_cases (i : Instr) (s : State) :
    (∃ c a, exec i s = raise c a s) ∨ ∃ t, exec i s = .next t ∧ KeepsRow i s t := by
  cases i
  case ret =>
    rcases exec_ret_cases s with ⟨-, he⟩ | ⟨_, he⟩
    · exact .inl ⟨_, _, he⟩
    · exact .inr ⟨_, he, by constructor <;> simp [writesStack]⟩
  case call nnn =>
    rcases exec_call_cases nnn s with ⟨-, he⟩ | ⟨_, he⟩
    · exact .inl ⟨_, _, he⟩
    · exact .inr ⟨_, he, by constructor <;> simp [writesStack]⟩
  case ldBcd x =>
    rcases exec_ldBcd_cases x s with ⟨-, he⟩ | ⟨-, he⟩
    · exact .inr ⟨_, he, by constructor <;> simp [writesMem]⟩
    · exact .inl ⟨_, _, he⟩
  case storeRegs x =>
    rcases exec_storeRegs_cases x s with ⟨-, he⟩ | ⟨-, he⟩
    · exact .inr ⟨_, he, by constructor <;> simp [writesMem, writesI]⟩
    · exact .inl ⟨_, _, he⟩
  case loadRegs x =>
    rcases exec_loadRegs_cases x s with ⟨-, he⟩ | ⟨-, he⟩
    · refine .inr ⟨_, he, ?_⟩
      constructor <;> try simp [writesI]
      intro k
      by_cases hk : k ≤ x
      · exact .inr (.inl hk)
      · exact .inl fun h => absurd h hk
    · exact .inl ⟨_, _, he⟩
  case drw x y n =>
    rcases exec_drw_cases x y n s with ⟨-, he⟩ | ⟨-, -, he⟩
    · refine .inr ⟨_, he, ?_⟩
      constructor <;> try simp [writesSurface]
      exact fun k => (Regs.set_or s.v 15 _ k).imp id fun h => .inr ⟨h, trivial⟩
    · exact .inl ⟨_, _, he⟩
  case skp x =>
    rcases exec_skp_cases x s with ⟨_, he⟩ | ⟨-, he⟩
    · exact .inr ⟨_, he, by constructor <;> simp⟩
    · exact .inl ⟨_, _, he⟩
  case sknp x =>
    rcases exec_sknp_cases x s with ⟨_, he⟩ | ⟨-, he⟩
    · exact .inr ⟨_, he, by constructor <;> simp⟩
    · exact .inl ⟨_, _, he⟩
  case ldVxKey x =>
    rcases exec_ldVxKey_cases x s with ⟨k, -, he⟩ | ⟨-, he⟩
    · exact .inr ⟨_, he, .oneReg (by exact fun _ h => h) _ _ _⟩
    · exact .inr ⟨_, he, by constructor <;> simp⟩
  case seImm | sneImm | seReg | sneReg => exact .inr ⟨_, rfl, by constructor <;> simp⟩
  case jp | jpV0 => exact .inr ⟨_, rfl, .pcOnly _ _ _⟩
  case cls => exact .inr ⟨_, rfl, by constructor <;> simp [writesSurface]⟩
  case ldI | ldGlyph => exact .inr ⟨_, rfl, by constructor <;> simp [writesI]⟩
  case ldDtVx | ldStVx => exact .inr ⟨_, rfl, by constructor <;> simp⟩
  case addI x =>
    refine .inr ⟨_, rfl, ?_⟩
    constructor <;> try simp [writesI]
    exact fun k => (Regs.set_or s.v 15 _ k).imp id fun h => .inr ⟨h, trivial⟩
  case addReg | subReg | subnReg => exact .inr ⟨_, rfl, (KeepsRow.regAndFlag (by exact fun _ h => h) (by trivial) _ _ _ _).1⟩
  case shr | shl => exact .inr ⟨_, rfl, (KeepsRow.regAndFlag (by exact fun _ h => h) (by trivial) _ _ _ _).2⟩
  case rnd x nn =>
    refine .inr ⟨_, rfl, ?_⟩
    constructor <;> try simp
    exact fun k => (Regs.set_or s.v x _ k).imp id fun h => .inl h
  case ldImm | addImm | ldReg | orReg | andReg | xorReg | ldVxDt => exact .inr ⟨_, rfl, .oneReg (by exact fun _ h => h) _ _ _⟩

/-- A fatal condition that an instruction raises is one of the table of spec/60_exceptions.md R181, with that cause and that `info`. -/
theorem exec_raise_haltsBy {i : Instr} {s : State} {c : Cause} {a : Word} (hx : s.Executes i) (h : exec i s = raise c a s) :
    s.HaltsBy c a := by
  obtain ⟨hs, hpc, hd⟩ := hx
  have goes : ∀ t : State, t.status = s.status → exec i s ≠ .next t := by
    intro t ht he
    rw [he, raise, next_inj] at h
    rw [h, hs] at ht
    cases ht
  have same : ∀ c' a', exec i s = raise c' a' s → c' = c ∧ a' = a := by
    intro c' a' he
    rw [he, raise, raise, next_inj] at h
    simpa using congrArg State.status h
  cases i
  case ret =>
    rcases exec_ret_cases s with ⟨h0, he⟩ | ⟨_, he⟩
    · obtain ⟨rfl, rfl⟩ := same _ _ he
      exact .ret hpc hd h0
    · exact absurd he (goes _ rfl)
  case call nnn =>
    rcases exec_call_cases nnn s with ⟨h0, he⟩ | ⟨_, he⟩
    · obtain ⟨rfl, rfl⟩ := same _ _ he
      exact .call nnn hpc hd h0
    · exact absurd he (goes _ rfl)
  case ldBcd x =>
    rcases exec_ldBcd_cases x s with ⟨-, he⟩ | ⟨h0, he⟩
    · exact absurd he (goes _ rfl)
    · obtain ⟨rfl, rfl⟩ := same _ _ he
      exact .ldBcd x hpc hd h0
  case storeRegs x =>
    rcases exec_storeRegs_cases x s with ⟨-, he⟩ | ⟨h0, he⟩
    · exact absurd he (goes _ rfl)
    · obtain ⟨rfl, rfl⟩ := same _ _ he
      exact .storeRegs x hpc hd h0
  case loadRegs x =>
    rcases exec_loadRegs_cases x s with ⟨-, he⟩ | ⟨h0, he⟩
    · exact absurd he (goes _ (by simp))
    · obtain ⟨rfl, rfl⟩ := same _ _ he
      exact .loadRegs x hpc hd h0
  case drw x y n =>
    rcases exec_drw_cases x y n s with ⟨-, he⟩ | ⟨hn, h0, he⟩
    · exact absurd he (goes _ rfl)
    · obtain ⟨rfl, rfl⟩ := same _ _ he
      exact .drw x y n hpc hd hn h0
  case skp x =>
    rcases exec_skp_cases x s with ⟨_, he⟩ | ⟨h0, he⟩
    · exact absurd he (goes _ (by simp))
    · obtain ⟨rfl, rfl⟩ := same _ _ he
      exact .skp x hpc hd h0
  case sknp x =>
    rcases exec_sknp_cases x s with ⟨_, he⟩ | ⟨h0, he⟩
    · exact absurd he (goes _ (by simp))
    · obtain ⟨rfl, rfl⟩ := same _ _ he
      exact .sknp x hpc hd h0
  case ldVxKey x =>
    rcases exec_ldVxKey_cases x s with ⟨k, -, he⟩ | ⟨-, he⟩
    · exact absurd he (goes _ rfl)
    · exact absurd he (goes _ rfl)
  case seImm | sneImm | seReg | sneReg => exact absurd rfl (goes _ (State.skipIf_status _ _))
  all_goals exact absurd rfl (goes _ rfl)

/-- What an instruction does to memory: nothing, or bytes stored at rising addresses below 4096. -/
theorem exec_mem_cases {i : Instr} {s t : State} (h : exec i s = .next t) :
    t.mem = s.mem ∨ ∃ a bs, a + bs.length ≤ 4096 ∧ t.mem = Memory.writeBytes s.mem a bs := by
  rcases exec_cases i s with ⟨c, a, he⟩ | ⟨u, he, hu⟩
  · rw [h, raise, next_inj] at he
    exact .inl (by rw [he])
  · rw [h, next_inj] at he
    subst he
    rcases hu.mem with hm | ⟨x, rfl | rfl⟩
    · exact .inl hm
    · rcases exec_ldBcd_cases x s with ⟨hr, he⟩ | ⟨-, he⟩
      · rw [h, next_inj] at he
        exact .inr ⟨s.i.toNat, bcdDigits (s.v[x]), by simp [bcdDigits]; omega, by rw [he]; rfl⟩
      · rw [h, raise, next_inj] at he
        exact .inl (by rw [he])
    · rcases exec_storeRegs_cases x s with ⟨hr, he⟩ | ⟨-, he⟩
      · rw [h, next_inj] at he
        exact .inr ⟨s.i.toNat, s.block x, by simp [State.block]; omega, by rw [he]; rfl⟩
      · rw [h, raise, next_inj] at he
        exact .inl (by rw [he])

/-! ### The step and its instruction -/

/-- A state executes at most one instruction. -/
theorem State.Executes.unique {s : State} {i j : Instr} (h : s.Executes i) (h' : s.Executes j) : i = j := by
  simpa using h.2.2.symm.trans h'.2.2

/-- A step runs the instruction the state executes, and then the end of the step. -/
theorem step_of_executes {s : State} {i : Instr} (h : s.Executes i) :
    step s = match exec i s with
      | .next t => .next t.endStep
      | .fault r => .fault r
      | .refused r => .refused r := by
  obtain ⟨hs, hpc, hd⟩ := h
  rcases step_cases s with ⟨h', -⟩ | ⟨-, hp, -⟩ | ⟨-, -, hn, -⟩ | ⟨-, -, j, hj, he⟩
  · exact absurd hs h'
  · omega
  · rw [hn] at hd
    cases hd
  · rw [hd] at hj
    cases hj
    exact he

end Sys2Proof.Machine
end

