-- ==== Sys2Proof/Laws/PerInstr.lean ====
section
/-! SUPPORT. Statements made per instruction. The family `EncodeMatchesRow`: the encoder's word of an instruction matches that
instruction's row of the opcode map (spec/30_encoding.md R75). The rows and the encoder are written apart, the one from the columns
`mask` and `match`, the other from the layouts of R71. -/

namespace Sys2Proof.Laws.EncodeMatchesRow

/-- The word of `i` is admitted by the row of `i`. -/
def Statement (i : Instr) : Prop := i.row.admits (encode i) = true

/-- The mask `0xF000` leaves the family. -/
theorem mask_family (f : BitVec 4) (nnn : Addr12) : formatA f nnn &&& 0xF000#16 = BitVec.append f 0#12 := by
  refine BitVec.eq_of_getLsbD_eq fun k hk => ?_
  simp only [formatA, BitVec.append_eq, BitVec.getLsbD_and, BitVec.getLsbD_append]
  interval_cases k <;> simp

/-- The mask `0xF00F` leaves the family and the low nibble. -/
theorem mask_nibble (f : BitVec 4) (x y : RegIx) (n : Nibble) :
    formatXY f x y n &&& 0xF00F#16 = formatXY f 0 0 n := by
  refine BitVec.eq_of_getLsbD_eq fun k hk => ?_
  simp only [formatXY, BitVec.append_eq, BitVec.getLsbD_and, BitVec.getLsbD_append]
  interval_cases k <;> simp

/-- The mask `0xF0FF` leaves the family and the low byte. -/
theorem mask_byte (f : BitVec 4) (x : RegIx) (nn : Byte) :
    formatXI f x nn &&& 0xF0FF#16 = formatXI f 0 nn := by
  refine BitVec.eq_of_getLsbD_eq fun k hk => ?_
  simp only [formatXI, BitVec.append_eq, BitVec.getLsbD_and, BitVec.getLsbD_append]
  interval_cases k <;> simp

theorem of_family {f : BitVec 4} {nnn : Addr12} {m : String} {value : Word} (h : BitVec.append f 0#12 = value) :
    OpcodeRow.admits ⟨m, 0xF000#16, value⟩ (formatA f nnn) = true := by
  simp only [OpcodeRow.admits, mask_family, h, beq_self_eq_true]

theorem of_nibble {f : BitVec 4} {x y : RegIx} {n : Nibble} {m : String} {value : Word} (h : formatXY f 0 0 n = value) :
    OpcodeRow.admits ⟨m, 0xF00F#16, value⟩ (formatXY f x y n) = true := by
  simp only [OpcodeRow.admits, mask_nibble, h, beq_self_eq_true]

theorem of_byte {f : BitVec 4} {x : RegIx} {nn : Byte} {m : String} {value : Word} (h : formatXI f 0 nn = value) :
    OpcodeRow.admits ⟨m, 0xF0FF#16, value⟩ (formatXI f x nn) = true := by
  simp only [OpcodeRow.admits, mask_byte, h, beq_self_eq_true]

theorem cls : Statement .cls := rfl
theorem ret : Statement .ret := rfl
theorem jp (nnn : Addr12) : Statement (.jp nnn) := of_family (by decide)
theorem call (nnn : Addr12) : Statement (.call nnn) := of_family (by decide)
theorem ldI (nnn : Addr12) : Statement (.ldI nnn) := of_family (by decide)
theorem jpV0 (nnn : Addr12) : Statement (.jpV0 nnn) := of_family (by decide)
theorem seImm (x : RegIx) (nn : Byte) : Statement (.seImm x nn) := of_family (by decide)
theorem sneImm (x : RegIx) (nn : Byte) : Statement (.sneImm x nn) := of_family (by decide)
theorem ldImm (x : RegIx) (nn : Byte) : Statement (.ldImm x nn) := of_family (by decide)
theorem addImm (x : RegIx) (nn : Byte) : Statement (.addImm x nn) := of_family (by decide)
theorem rnd (x : RegIx) (nn : Byte) : Statement (.rnd x nn) := of_family (by decide)
theorem seReg (x y : RegIx) : Statement (.seReg x y) := of_nibble (by decide)
theorem sneReg (x y : RegIx) : Statement (.sneReg x y) := of_nibble (by decide)
theorem ldReg (x y : RegIx) : Statement (.ldReg x y) := of_nibble (by decide)
theorem orReg (x y : RegIx) : Statement (.orReg x y) := of_nibble (by decide)
theorem andReg (x y : RegIx) : Statement (.andReg x y) := of_nibble (by decide)
theorem xorReg (x y : RegIx) : Statement (.xorReg x y) := of_nibble (by decide)
theorem addReg (x y : RegIx) : Statement (.addReg x y) := of_nibble (by decide)
theorem subReg (x y : RegIx) : Statement (.subReg x y) := of_nibble (by decide)
theorem shr (x y : RegIx) : Statement (.shr x y) := of_nibble (by decide)
theorem subnReg (x y : RegIx) : Statement (.subnReg x y) := of_nibble (by decide)
theorem shl (x y : RegIx) : Statement (.shl x y) := of_nibble (by decide)
theorem drw (x y : RegIx) (n : Nibble) : Statement (.drw x y n) := of_family (by decide)
theorem skp (x : RegIx) : Statement (.skp x) := of_byte (by decide)
theorem sknp (x : RegIx) : Statement (.sknp x) := of_byte (by decide)
theorem ldVxDt (x : RegIx) : Statement (.ldVxDt x) := of_byte (by decide)
theorem ldDtVx (x : RegIx) : Statement (.ldDtVx x) := of_byte (by decide)
theorem ldStVx (x : RegIx) : Statement (.ldStVx x) := of_byte (by decide)
theorem ldVxKey (x : RegIx) : Statement (.ldVxKey x) := of_byte (by decide)
theorem addI (x : RegIx) : Statement (.addI x) := of_byte (by decide)
theorem ldGlyph (x : RegIx) : Statement (.ldGlyph x) := of_byte (by decide)
theorem ldBcd (x : RegIx) : Statement (.ldBcd x) := of_byte (by decide)
theorem storeRegs (x : RegIx) : Statement (.storeRegs x) := of_byte (by decide)
theorem loadRegs (x : RegIx) : Statement (.loadRegs x) := of_byte (by decide)

end Sys2Proof.Laws.EncodeMatchesRow
end

