-- ==== Sys2Proof/Tests/Slice0.lean ====
section
/-! SUPPORT. The model's own tests. Expected values come from spec/95_test_vectors.md (a vector's id stands in the comment) and from the
examples of the rules; each is one step on a small state. After them, for every statement with hypotheses, a concrete state and
operands that meet all of them (`test_witness_<statement>`). -/

namespace Sys2Proof.Tests

open Sys2Proof.Machine

/-! ### Well-formed words (spec/30_encoding.md R75, R78) -/

/-- A word of each class of illegal words, (a) to (f) of R78, is refused. -/
theorem test_illegal_words_refused :
    [0x0000, 0x00E1, 0x01E0, 0x5121, 0x8128, 0x812F, 0x912F, 0xE19F, 0xE000, 0xF100, 0xF175, 0xFFFF].map wellFormedWord
      = List.replicate 12 false := by decide

/-- A word of every row of R75 is well-formed. -/
theorem test_legal_words_accepted :
    [0x00E0, 0x00EE, 0x1234, 0x2300, 0x332A, 0x432A, 0x5120, 0x9120, 0x6A2F, 0x7102, 0x8120, 0x8121, 0x8122, 0x8123, 0x8014, 0x8015,
      0x8206, 0x8017, 0x820E, 0xA2F0, 0xB300, 0xC30F, 0xD011, 0xE59E, 0xE5A1, 0xF307, 0xF315, 0xF318, 0xF20A, 0xF11E, 0xF429, 0xF333,
      0xF255, 0xF265].map wellFormedWord = List.replicate 34 true := by decide

/-- "No two rows overlap" (R75): two rows always differ in a bit that both fix. -/
theorem test_rows_disjoint :
    opcodeRows.toList.Pairwise fun r q => r.mask &&& q.mask &&& (r.value ^^^ q.value) ≠ 0 := by decide

/-- The masks and matches of R75 fix no bit outside the mask. -/
theorem test_matches_within_masks : ∀ r ∈ opcodeRows.toList, r.value &&& r.mask = r.value := by decide

/-! ### Decoding: the words of the examples of R111 to R176, written out from their encodings -/

theorem test_decode_control :
    decodeWord 0x00E0 = some .cls ∧ decodeWord 0x00EE = some .ret ∧ decodeWord 0x1234 = some (.jp 0x234)
      ∧ decodeWord 0x2300 = some (.call 0x300) ∧ decodeWord 0xB300 = some (.jpV0 0x300) := by decide

theorem test_decode_skips :
    decodeWord 0x332A = some (.seImm 3 0x2A) ∧ decodeWord 0x432A = some (.sneImm 3 0x2A) ∧ decodeWord 0x5120 = some (.seReg 1 2)
      ∧ decodeWord 0x9120 = some (.sneReg 1 2) := by decide

theorem test_decode_alu :
    decodeWord 0x6A2F = some (.ldImm 10 0x2F) ∧ decodeWord 0x7102 = some (.addImm 1 0x02) ∧ decodeWord 0x8120 = some (.ldReg 1 2)
      ∧ decodeWord 0x8121 = some (.orReg 1 2) ∧ decodeWord 0x8122 = some (.andReg 1 2) ∧ decodeWord 0x8123 = some (.xorReg 1 2)
      ∧ decodeWord 0x8014 = some (.addReg 0 1) ∧ decodeWord 0x8015 = some (.subReg 0 1) ∧ decodeWord 0x8206 = some (.shr 2 0)
      ∧ decodeWord 0x8017 = some (.subnReg 0 1) ∧ decodeWord 0x820E = some (.shl 2 0)
      ∧ decodeWord 0xC30F = some (.rnd 3 0x0F) := by decide

theorem test_decode_memory_display :
    decodeWord 0xA2F0 = some (.ldI 0x2F0) ∧ decodeWord 0xF11E = some (.addI 1) ∧ decodeWord 0xF429 = some (.ldGlyph 4)
      ∧ decodeWord 0xF333 = some (.ldBcd 3) ∧ decodeWord 0xF255 = some (.storeRegs 2) ∧ decodeWord 0xF265 = some (.loadRegs 2)
      ∧ decodeWord 0xD012 = some (.drw 0 1 2) := by decide

theorem test_decode_keys_timers :
    decodeWord 0xE59E = some (.skp 5) ∧ decodeWord 0xE5A1 = some (.sknp 5) ∧ decodeWord 0xF307 = some (.ldVxDt 3)
      ∧ decodeWord 0xF315 = some (.ldDtVx 3) ∧ decodeWord 0xF318 = some (.ldStVx 3) ∧ decodeWord 0xF20A = some (.ldVxKey 2) := by
  decide

/-- Bytes in memory order, the high byte first (spec/20_memory.md R54); the rest of the bytes is handed back; and the two refusals. -/
theorem test_decode_bytes :
    (match decode [0x6A, 0x2F, 0xFF] with | .ok r => some r | .error _ => none) = some (.ldImm 10 0x2F, [0xFF])
      ∧ (match decode [0x51, 0x21] with | .ok _ => none | .error e => some e) = some (.unknownOpcode 0x5121)
      ∧ (match decode [0x6A] with | .ok _ => none | .error e => some e) = some .truncated := by decide

/-- Encoding from the six layouts of R71: the words of T43-1, T41-5, T45-6, T46-1 and T42-5. -/
theorem test_encode :
    encode (.ldImm 10 0x7F) = 0x6A7F ∧ encode (.call 0x345) = 0x2345 ∧ encode (.drw 0 1 2) = 0xD012 ∧ encode (.skp 5) = 0xE59E
      ∧ encodeBytes (.seReg 1 2) = [0x51, 0x20] := by decide

/-! ### One step -/

/-- The reset state with some registers set. -/
def regs (l : List (RegIx × Byte)) : State :=
  { State.reset with v := l.foldl (fun v p => v.set p.1 p.2) State.reset.v }

/-- The state one step leaves when the word is put at `pc`. -/
def after (s : State) (w : Nat) : State :=
  match step (s.withFetchWord 16 w) with
  | .next t => t
  | .fault _ => s
  | .refused _ => s

/-- The columns of a row whose pixels are 1. -/
def lit (s : State) (row : Fin 32) : List Nat :=
  (List.range 64).filter fun c => (s.pix[row].toList[c]?) == some true

/-- T40-1. -/
theorem test_unknown_zero_word : (after State.reset 0x0000).status = .halted .unknownOpcode 0x0000 := by decide

/-- T40-12: no tick on a fatal step. -/
theorem test_unknown_no_tick :
    let t := after { State.reset with dt := 5, st := 5 } 0xFFFF
    t.status = .halted .unknownOpcode 0xFFFF ∧ t.dt = 5 ∧ t.st = 5 ∧ t.pc = 0x200 := by decide

/-- T40-6 and T40-5: the fetch past memory. -/
theorem test_fetch_range :
    step { State.reset with pc := 0x1000 } = .next { State.reset with pc := 0x1000, status := .halted .addressOutOfRange 0x1000 }
      ∧ step { State.reset with pc := 0x0FFF }
          = .next { State.reset with pc := 0x0FFF, status := .halted .addressOutOfRange 0x1000 } := ⟨rfl, rfl⟩

/-- T40-8 and T40-9: the last legal fetch, and an odd `pc`. -/
theorem test_fetch_edges :
    (after { State.reset with pc := 0x0FFE } 0x6A55).pc = 0x1000 ∧ (after { State.reset with pc := 0x0201 } 0x6A55).pc = 0x203 := by
  decide

/-- T40-13: a step request while halted. -/
theorem test_halted_step :
    let s := { State.reset with dt := 5, status := .halted .unknownOpcode 0xFFFF }
    step s = .next s := rfl

/-- T40-10 and T40-11: the Timer Tick. -/
theorem test_tick :
    (after { State.reset with dt := 5, st := 1 } 0x6000).dt = 4 ∧ (after { State.reset with dt := 5, st := 1 } 0x6000).st = 0
      ∧ (after { State.reset with st := 0xFF } 0x6000).dt = 0 := by decide

/-- T41-1 and T41-3. -/
theorem test_jp : (after State.reset 0x1ABC).pc = 0xABC ∧ (after State.reset 0x1FFF).pc = 0xFFF := by decide

/-- T41-6: the sixteenth call saves the address of the call itself. -/
theorem test_call :
    let t := after { State.reset with sp := 15 } 0x2345
    t.pc = 0x345 ∧ t.sp = 16 ∧ t.stack[15] = 0x200 := by decide

/-- T41-7. -/
theorem test_call_overflow :
    let t := after { State.reset with sp := 16 } 0x2345
    t.status = .halted .stackOverflow 0x200 ∧ t.pc = 0x200 ∧ t.sp = 16 := by decide

/-- T41-8. -/
theorem test_ret :
    let t := after { State.reset with pc := 0x300, sp := 1, stack := State.reset.stack.set 0 0x204 } 0x00EE
    t.pc = 0x206 ∧ t.sp = 0 ∧ t.stack[0] = 0x204 := by decide

/-- T41-9. -/
theorem test_ret_underflow :
    (after State.reset 0x00EE).status = .halted .stackUnderflow 0x200 ∧ (after State.reset 0x00EE).sp = 0 := by decide

/-- T41-12 and T41-11. -/
theorem test_jpV0 : (after (regs [(0, 0xFF)]) 0xBFFF).pc = 0x10FE ∧ (after (regs [(0, 0x10)]) 0xB300).pc = 0x310 := by decide

/-- T42-1 and T42-2. -/
theorem test_seImm : (after (regs [(3, 0x42)]) 0x3342).pc = 0x204 ∧ (after (regs [(3, 0x42)]) 0x3343).pc = 0x202 := by decide

/-- T42-3 and T42-4. -/
theorem test_sneImm : (after (regs [(3, 0x42)]) 0x4342).pc = 0x202 ∧ (after (regs [(3, 0x42)]) 0x4343).pc = 0x204 := by decide

/-- T42-6 and T42-7. -/
theorem test_seReg : (after (regs [(1, 7), (2, 8)]) 0x5120).pc = 0x202 ∧ (after (regs [(4, 0x99)]) 0x5440).pc = 0x204 := by decide

/-- T42-9 and T42-10. -/
theorem test_sneReg : (after (regs [(1, 7), (2, 8)]) 0x9120).pc = 0x204 ∧ (after (regs [(4, 0x99)]) 0x9440).pc = 0x202 := by decide

/-- T43-1 and T43-2. -/
theorem test_ldImm : (after State.reset 0x6A7F).v[10] = 0x7F ∧ (after (regs [(15, 1)]) 0x6F00).v[15] = 0 := by decide

/-- T43-4 and T43-5: the wrap leaves `VF` alone, and `VF` is a plain destination. -/
theorem test_addImm :
    (after (regs [(2, 0x80), (15, 1)]) 0x7280).v[2] = 0 ∧ (after (regs [(2, 0x80), (15, 1)]) 0x7280).v[15] = 1
      ∧ (after (regs [(15, 0xFE)]) 0x7F03).v[15] = 1 := by decide

/-- T43-6. -/
theorem test_ldReg : (after (regs [(1, 0x12), (2, 0x34)]) 0x8120).v[1] = 0x34 := by decide

/-- T43-7 to T43-9. -/
theorem test_logic :
    let s := regs [(1, 0xF0), (2, 0x3C), (15, 1)]
    (after s 0x8121).v[1] = 0xFC ∧ (after s 0x8122).v[1] = 0x30 ∧ (after s 0x8123).v[1] = 0xCC
      ∧ [0x8121, 0x8122, 0x8123].map (fun w => (after s w).v[15]) = [1, 1, 1] := by decide

/-- T43-12 and T43-13. -/
theorem test_addReg :
    (after (regs [(1, 0xC8), (2, 0x64)]) 0x8124).v[1] = 0x2C ∧ (after (regs [(1, 0xC8), (2, 0x64)]) 0x8124).v[15] = 1
      ∧ (after (regs [(1, 1), (2, 2), (15, 1)]) 0x8124).v[15] = 0 := by decide

/-- T43-15 and T43-17: `X = F` and `Y = F`. -/
theorem test_addReg_vf :
    (after (regs [(15, 0xF0), (1, 0x20)]) 0x8F14).v[15] = 1 ∧ (after (regs [(1, 0xFF), (15, 1)]) 0x81F4).v[1] = 0
      ∧ (after (regs [(1, 0xFF), (15, 1)]) 0x81F4).v[15] = 1 := by decide

/-- T43-19 and T43-18. -/
theorem test_subReg :
    (after (regs [(1, 5), (2, 10), (15, 1)]) 0x8125).v[1] = 0xFB ∧ (after (regs [(1, 5), (2, 10), (15, 1)]) 0x8125).v[15] = 0
      ∧ (after (regs [(1, 10), (2, 5)]) 0x8125).v[15] = 1 := by decide

/-- T43-20 and T43-21: `X = Y` and `X = F`. -/
theorem test_subReg_corners :
    (after (regs [(1, 0x33)]) 0x8115).v[15] = 1 ∧ (after (regs [(15, 5), (1, 3)]) 0x8F15).v[15] = 1 := by decide

/-- T43-23 and T43-26: `VY` is ignored; `X = F` leaves 0. -/
theorem test_shr :
    (after (regs [(1, 5), (2, 0xFF)]) 0x8126).v[1] = 2 ∧ (after (regs [(1, 5), (2, 0xFF)]) 0x8126).v[15] = 1
      ∧ (after (regs [(15, 0xFF)]) 0x8F06).v[15] = 0 := by decide

/-- T43-27 and T43-28. -/
theorem test_subnReg :
    (after (regs [(1, 3), (2, 10)]) 0x8127).v[1] = 7 ∧ (after (regs [(1, 3), (2, 10)]) 0x8127).v[15] = 1
      ∧ (after (regs [(1, 10), (2, 5), (15, 1)]) 0x8127).v[1] = 0xFB
      ∧ (after (regs [(1, 10), (2, 5), (15, 1)]) 0x8127).v[15] = 0 := by decide

/-- T43-31 and T43-34: `VY` is ignored; `X = F` leaves 2. -/
theorem test_shl :
    (after (regs [(1, 0x81)]) 0x812E).v[1] = 2 ∧ (after (regs [(1, 0x81)]) 0x812E).v[15] = 1
      ∧ (after (regs [(15, 0x80)]) 0x8F0E).v[15] = 2 := by decide

/-- T43-37: `NN = 0` gives 0 whatever byte is drawn. -/
theorem test_rnd_zero : (after (regs [(3, 0x55)]) 0xC300).v[3] = 0 := by
  show Config.randomByte 0 &&& 0 = 0
  simp

/-- R142: `NN = 0xFF` passes the draw through, and the next draw is another. -/
theorem test_rnd_through : (after State.reset 0xC3FF).v[3] = Config.randomByte 0 ∧ (after State.reset 0xC3FF).draws = 1 := by
  refine ⟨?_, rfl⟩
  show Config.randomByte 0 &&& 0xFF = _
  exact BitVec.and_allOnes

/-- T44-1. -/
theorem test_ldI : (after State.reset 0xAFFF).i = 0xFFF := by decide

/-- T44-5 and T44-4: the range flag at its edge. -/
theorem test_addI :
    (after { regs [(1, 1)] with i := 0xFFF } 0xF11E).i = 0x1000 ∧ (after { regs [(1, 1)] with i := 0xFFF } 0xF11E).v[15] = 1
      ∧ (after { regs [(15, 1)] with i := 0xFFF } 0xF11E).v[15] = 0 := by decide

/-- T44-8 and T44-9: the 16-bit wrap, and `X = F`. -/
theorem test_addI_corners :
    (after { regs [(1, 2)] with i := 0xFFFF } 0xF11E).i = 1 ∧ (after { regs [(1, 2)] with i := 0xFFFF } 0xF11E).v[15] = 1
      ∧ (after { regs [(15, 5)] with i := 0xFFF } 0xFF1E).i = 0x1000 := by decide

/-- T44-11 and T44-13. -/
theorem test_ldGlyph : (after (regs [(1, 10)]) 0xF129).i = 0x32 ∧ (after (regs [(1, 0xFF)]) 0xF129).i = 0x4FB := by decide

/-- T44-19: the last legal `I`. -/
theorem test_ldBcd :
    let t := after { regs [(1, 0x7B)] with i := 0xFFD } 0xF133
    Memory.readBytes t.mem 0xFFD 3 = [1, 2, 3] ∧ t.i = 0xFFD ∧ t.pc = 0x202 := by decide

/-- T44-20: nothing is written. -/
theorem test_ldBcd_range :
    let t := after { regs [(1, 0x7B)] with i := 0xFFE } 0xF133
    t.status = .halted .addressOutOfRange 0x1000 ∧ Memory.readBytes t.mem 0xFFE 2 = [0, 0] := by decide

/-- T44-26: the block ends at 4095 and `I` becomes 4096. -/
theorem test_storeRegs :
    let t := after { regs [(0, 0x11), (1, 0x22), (2, 0x33), (3, 0x44)] with i := 0xFFC } 0xF355
    Memory.readBytes t.mem 0xFFC 4 = [0x11, 0x22, 0x33, 0x44] ∧ t.i = 0x1000 ∧ t.status = .running := by decide

/-- T44-27. -/
theorem test_storeRegs_range :
    let t := after { regs [(0, 0x11)] with i := 0xFFD } 0xF355
    t.status = .halted .addressOutOfRange 0x1000 ∧ t.i = 0xFFD ∧ Memory.read t.mem 0xFFD = 0 := by decide

/-- T44-29. -/
theorem test_loadRegs :
    let t := after { regs [(3, 0x77)] with i := 0x300, mem := Memory.writeBytes [] 0x300 [1, 2, 3, 4] } 0xF265
    t.v.toList.take 4 = [1, 2, 3, 0x77] ∧ t.i = 0x303 := by decide

/-- T44-33. -/
theorem test_loadRegs_range :
    (after { State.reset with i := 0xFFF } 0xF165).status = .halted .addressOutOfRange 0x1000 := by decide

/-- The sprite data of the T45 rows, and `I` at it. -/
def sprites (l : List (RegIx × Byte)) : State :=
  { regs l with i := 0x300, mem := Memory.writeBytes [] 0x300 [0xFF, 0x81, 0xFF] }

/-- T45-1: every pixel is cleared, `VF` is not written. -/
theorem test_cls :
    let t := after { regs [(15, 1)] with pix := (State.reset.pix.set 0 (State.reset.pix[0].set 0 true)) } 0x00E0
    lit t 0 = [] ∧ t.v[15] = 1 ∧ t.dcf = true := by decide +kernel

/-- T45-8: clipping at both edges. -/
theorem test_drw_clips :
    let t := after (sprites [(0, 62), (1, 31)]) 0xD013
    lit t 31 = [62, 63] ∧ lit t 0 = [] ∧ t.v[15] = 0 ∧ t.dcf = true := by decide +kernel

/-- T45-5: one pixel collides. -/
theorem test_drw_collides :
    let t := after { sprites [(0, 8), (1, 2)] with pix := State.reset.pix.set 2 (State.reset.pix[2].set 15 true) } 0xD011
    lit t 2 = [8, 9, 10, 11, 12, 13, 14] ∧ t.v[15] = 1 := by decide +kernel

/-- T46-1 and T46-3: the key is named by `VX`, not by `X`. -/
theorem test_skp :
    (after { regs [(5, 10)] with key := State.reset.key.set 10 true } 0xE59E).pc = 0x204
      ∧ (after { regs [(5, 10)] with key := State.reset.key.set 5 true } 0xE59E).pc = 0x202 := by decide

/-- T46-6. -/
theorem test_skp_range : (after (regs [(5, 16)]) 0xE59E).status = .halted .keyIndexOutOfRange 0x10 := by decide

/-- T46-4 and T46-5. -/
theorem test_sknp :
    (after { regs [(5, 10)] with key := State.reset.key.set 10 true } 0xE5A1).pc = 0x202
      ∧ (after (regs [(5, 10)]) 0xE5A1).pc = 0x204 := by decide

/-- T46-7. -/
theorem test_sknp_range :
    (after { regs [(5, 0xFF)] with key := Vector.replicate 16 true } 0xE5A1).status = .halted .keyIndexOutOfRange 0xFF := by decide

/-- T46-9. -/
theorem test_ldVxDt :
    (after { State.reset with dt := 0x10 } 0xF307).v[3] = 0x10 ∧ (after { State.reset with dt := 0x10 } 0xF307).dt = 0x0F := by decide

/-- T46-12. -/
theorem test_ldDtVx : (after (regs [(3, 0x3C)]) 0xF315).dt = 0x3B := by decide

/-- T46-15. -/
theorem test_ldStVx :
    (after { regs [(3, 5)] with dt := 2 } 0xF318).st = 4 ∧ (after { regs [(3, 5)] with dt := 2 } 0xF318).dt = 1 := by decide

/-- T46-20: the highest index wins. -/
theorem test_ldVxKey :
    let t := after { State.reset with key := (State.reset.key.set 3 true).set 12 true } 0xF20A
    t.v[2] = 0x0C ∧ t.pc = 0x202 ∧ t.key[12] = true := by decide

/-- T46-23: waiting, the timers fall. -/
theorem test_ldVxKey_waits :
    let t := after { regs [(2, 0x33)] with dt := 2, st := 1 } 0xF20A
    t.pc = 0x200 ∧ t.v[2] = 0x33 ∧ t.dt = 1 ∧ t.st = 0 := by decide

/-! ### Construction and the Loader -/

/-- T70-4 and T70-8: a second load overwrites two bytes and leaves the rest. -/
theorem test_load :
    let s := (State.reset.loadProgram (.bytes [1, 2, 3, 4])).1
    Memory.readBytes (s.loadProgram (.bytes [9, 9])).1.mem 0x200 4 = [9, 9, 3, 4] := by decide

/-- T70-7: a ROM of 3585 bytes. -/
theorem test_load_too_large (rom : List Byte) (h : rom.length = 3585) :
    State.reset.loadProgram (.bytes rom) = (State.reset, some .romTooLarge) :=
  if_pos (by omega)

/-- T70-9: construction of a halted machine. -/
theorem test_construct : { State.reset with status := .halted .stackUnderflow 0x200 }.construct = State.reset := by decide

/-- R181: the codes 1 to 5. -/
theorem test_cause_codes :
    [Cause.unknownOpcode, .stackOverflow, .stackUnderflow, .addressOutOfRange, .keyIndexOutOfRange].map Cause.code
      = [1, 2, 3, 4, 5] := by decide

/-- R213: the customary table has 80 bytes, and glyph A stands at `0x32`. -/
theorem test_customary_font :
    Config.customaryFont.length = 80 ∧ (Config.customaryFont.drop 0x32).take 5 = [0xF0, 0x90, 0xF0, 0x90, 0x90] := by decide

/-! ### Witnesses: for every statement with hypotheses, states and operands that meet them -/

/-- The reset state with a word where the next step fetches. -/
def ready (s : State) (w : Nat) : State := s.withFetchWord 16 w

/-- A state at the edge of the invariant: the last byte of memory listed, a full stack of the largest addresses, the largest `pc`. -/
def edge : State :=
  { State.reset with mem := [(4095, 1)], sp := 16, stack := Vector.replicate 16 0xFFE, pc := 0x10FE }

theorem test_edge_inv : edge.Inv :=
  ⟨by decide, fun k _ => by show (edge.stack[k]).toNat ≤ 0xFFE; revert k; decide, by unfold State.PcInRange; decide⟩

theorem test_witness_DecodeAgreesWithEncode :
    decodeWord 0xDEF8 = some (.drw 14 15 8) ∧ encode (.drw 14 15 8) = 0xDEF8 := by decide

theorem test_witness_DecodeMatchesOpcodeMap :
    ⟨"SHL_Vx", 0xF00F, 0x800E⟩ ∈ opcodeRows.toList ∧ (⟨"SHL_Vx", 0xF00F, 0x800E⟩ : OpcodeRow).admits 0x812E = true := by decide

/-- A word at the edge of each clause (a) to (f). -/
theorem test_witness_UnlistedWordsAreUnknown :
    [0x0FFF, 0x5FFF, 0x8FF8, 0x9001, 0xE09D, 0xFF66].map decodeWord = List.replicate 6 none := by decide

theorem test_witness_StepRunsDecodedInstruction :
    let s := ready { State.reset with pc := 0xFFE } 0x6A55
    s.status = .running ∧ s.pc.toNat + 1 < 4096
      ∧ (0x6A55 : Word).toNat = (Memory.read s.mem s.pc.toNat).toNat * 256 + (Memory.read s.mem (s.pc.toNat + 1)).toNat
      ∧ decodeWord 0x6A55 = some (.ldImm 10 0x55) := by decide

theorem test_witness_PlacedWordIsExecuted : decodeTableWord 16 0x6A55 = some (.ldImm 10 0x55) := by decide

/-- Both clauses: `pc` at 4095 and at 4096. -/
theorem test_witness_FetchPastMemoryHalts :
    ({ State.reset with pc := 0xFFF }.status = .running ∧ 4096 ≤ { State.reset with pc := 0xFFF }.pc.toNat + 1)
      ∧ { State.reset with pc := 0x1000 }.status = .running ∧ 4096 ≤ { State.reset with pc := 0x1000 }.pc.toNat :=
  ⟨⟨rfl, by decide⟩, rfl, by decide⟩

theorem test_witness_IllegalWordHalts :
    let s := ready State.reset 0x5121
    s.status = .running ∧ s.pc.toNat + 1 < 4096
      ∧ (0x5121 : Word).toNat = (Memory.read s.mem s.pc.toNat).toNat * 256 + (Memory.read s.mem (s.pc.toNat + 1)).toNat
      ∧ ∀ r ∈ opcodeRows.toList, 0x5121 &&& r.mask ≠ r.value := by decide

theorem test_witness_HaltedMachineStaysHalted :
    { State.reset with status := .halted .stackUnderflow 0x200 }.status = .halted .stackUnderflow 0x200 := rfl

theorem test_witness_FatalStepChangesOnlyStatus :
    let s := ready State.reset 0x00EE
    s.status = .running ∧ ∃ t, step s = .next t ∧ t.status ≠ .running := ⟨rfl, _, rfl, by decide⟩

/-- Every line of the table of R181 is reached. -/
theorem test_witness_HaltTellsItsCause :
    { State.reset with pc := 0xFFF }.HaltsBy .addressOutOfRange 0x1000
      ∧ (ready State.reset 0x5121).HaltsBy .unknownOpcode 0x5121
      ∧ (ready { State.reset with sp := 16 } 0x2345).HaltsBy .stackOverflow 0x200
      ∧ (ready State.reset 0x00EE).HaltsBy .stackUnderflow 0x200
      ∧ (ready { State.reset with i := 0xFFE } 0xD013).HaltsBy .addressOutOfRange 0x1000
      ∧ (ready { State.reset with i := 0xFFE } 0xF133).HaltsBy .addressOutOfRange 0x1000
      ∧ (ready { State.reset with i := 0x1001 } 0xF055).HaltsBy .addressOutOfRange 0x1001
      ∧ (ready { State.reset with i := 0xFFF } 0xF165).HaltsBy .addressOutOfRange 0x1000
      ∧ (ready (regs [(5, 16)]) 0xE59E).HaltsBy .keyIndexOutOfRange 0x10
      ∧ (ready (regs [(5, 255)]) 0xE5A1).HaltsBy .keyIndexOutOfRange 0xFF :=
  ⟨.fetch (by decide), .unknown (by decide) (by decide), .call 0x345 (by decide) (by decide) (by decide),
    .ret (by decide) (by decide) (by decide), .drw 0 1 3 (by decide) (by decide) (by decide) (by decide),
    .ldBcd 1 (by decide) (by decide) (by decide), .storeRegs 0 (by decide) (by decide) (by decide),
    .loadRegs 1 (by decide) (by decide) (by decide), .skp 5 (by decide) (by decide) (by decide),
    .sknp 5 (by decide) (by decide) (by decide)⟩

theorem test_witness_TimersFallOncePerStep :
    (ready State.reset 0xF315).Executes (.ldDtVx 3) ∧ (ready State.reset 0xF318).Executes (.ldStVx 3)
      ∧ (ready { State.reset with dt := 1, st := 255 } 0x6000).Executes (.ldImm 0 0)
      ∧ ∀ w ∈ [0xF315, 0xF318, 0x6000], ∃ t, step (ready State.reset w) = .next t ∧ t.status = .running := by
  refine ⟨⟨rfl, by decide, by decide⟩, ⟨rfl, by decide, by decide⟩, ⟨rfl, by decide, by decide⟩, ?_⟩
  simp only [List.forall_mem_cons, List.not_mem_nil, false_implies, implies_true, and_true]
  exact ⟨⟨_, rfl, rfl⟩, ⟨_, rfl, rfl⟩, ⟨_, rfl, rfl⟩⟩

theorem test_witness_SetThenReadDelayTimer :
    let s := { ready (regs [(3, 1)]) 0xF315 with mem := Memory.writeBytes [] 0x200 [0xF3, 0x15, 0xF3, 0x07] }
    s.Executes (.ldDtVx 3) ∧ 0 < (s.v[3]).toNat
      ∧ ∃ t, step s = .next t ∧ t.Executes (.ldVxDt 3) ∧ ∃ u, step t = .next u :=
  ⟨⟨rfl, by decide, by decide⟩, by decide, _, rfl, ⟨rfl, by decide, by decide⟩, _, rfl⟩

/-- An instruction that completes in a state: it answers a next state that is still running. -/
def completes (i : Instr) (s : State) : Bool :=
  match exec i s with
  | .next t => t.status == .running
  | .fault _ => false
  | .refused _ => false

/-- A state in which every instruction completes, at `SP = 1` with key 0 down; and one without a key. -/
theorem test_witness_ProgramCounterPolicy :
    let s := { State.reset with sp := 1, key := State.reset.key.set 0 true }
    s.status = .running ∧ completes (.ldVxKey 1) State.reset = true
      ∧ [Instr.cls, .ret, .jp 0, .call 0, .seImm 0 0, .sneImm 0 0, .seReg 0 1, .sneReg 0 1, .ldImm 0 0, .addImm 0 0, .ldReg 0 1,
          .orReg 0 1, .andReg 0 1, .xorReg 0 1, .addReg 0 1, .subReg 0 1, .shr 0 1, .subnReg 0 1, .shl 0 1, .ldI 0, .jpV0 0,
          .rnd 0 0, .drw 0 1 0, .skp 0, .sknp 0, .ldVxDt 0, .ldDtVx 0, .ldStVx 0, .ldVxKey 0, .addI 0, .ldGlyph 0, .ldBcd 0,
          .storeRegs 0, .loadRegs 0].all (fun i => completes i s) = true := ⟨rfl, rfl, rfl⟩

/-- Every clause: a step, and the three moves of the host. -/
theorem test_witness_ComponentWriters :
    (∃ t, step (ready State.reset 0xF055) = .next t) ∧ (∃ t, hostMove (.load (.bytes [1])) State.reset = .next t)
      ∧ (15 : KeyIx) ≠ 0 := ⟨⟨_, rfl⟩, ⟨_, rfl⟩, by decide⟩

/-- Construction from a halted machine with a key down, a full stack and a drawn byte. -/
theorem test_witness_ResetState :
    let s := { State.reset with status := .halted .stackOverflow 0x200, sp := 16, key := State.reset.key.set 15 true, draws := 3 }
    ∃ t, t = State.reset ∨ ∃ s', s' = s ∧ hostMove .construct s' = .next t := ⟨_, .inr ⟨_, rfl, rfl⟩⟩

/-- Both clauses of each condition, at the values where they meet. -/
theorem test_witness_InstructionsCompleteUnlessTheyRaise :
    let s := { State.reset with i := 0xFFC, sp := 1, v := State.reset.v.set 2 15 }
    let u := { State.reset with i := 0xFFE, sp := 16, v := State.reset.v.set 2 16 }
    s.CanComplete .ret ∧ ¬ State.reset.CanComplete .ret ∧ { s with sp := 15 }.CanComplete (.call 0) ∧ ¬ u.CanComplete (.call 0)
      ∧ s.CanComplete (.skp 2) ∧ ¬ u.CanComplete (.skp 2) ∧ s.CanComplete (.sknp 2) ∧ ¬ u.CanComplete (.sknp 2)
      ∧ s.CanComplete (.ldBcd 0) ∧ ¬ u.CanComplete (.ldBcd 0) ∧ s.CanComplete (.storeRegs 3) ∧ ¬ s.CanComplete (.storeRegs 4)
      ∧ s.CanComplete (.loadRegs 3) ∧ ¬ s.CanComplete (.loadRegs 4) ∧ s.CanComplete (.drw 0 0 4) ∧ ¬ s.CanComplete (.drw 0 0 5)
      ∧ { s with i := 0xFFFF }.CanComplete (.drw 0 0 0) ∧ s.CanComplete (.rnd 0 0) := by
  simp only [State.CanComplete]; decide

theorem test_witness_SoundAndDisplayFlagUnobservable :
    let s := ready State.reset 0xD011
    ∃ t u, step s = .next t ∧ step { s with st := 7, dcf := true } = .next u := ⟨_, _, rfl, rfl⟩

theorem test_witness_StepKeepsInv : edge.Inv ∧ ∃ t, step edge = .next t := ⟨test_edge_inv, _, rfl⟩

/-- Every move, from a state at the edge of the invariant; a load of 3584 bytes and one too long among them. -/
theorem test_witness_HostMovesKeepInv :
    edge.Inv ∧ ∀ m ∈ [HostMove.construct, .load (.bytes (List.replicate 3584 1)), .load (.bytes (List.replicate 3585 1)),
      .load .failed, .key 0 true, .clearDcf, .step], ∃ t, hostMove m edge = .next t := by
  refine ⟨test_edge_inv, ?_⟩
  simp only [List.forall_mem_cons, List.not_mem_nil, false_implies, implies_true, and_true]
  exact ⟨⟨_, rfl⟩, ⟨_, rfl⟩, ⟨_, rfl⟩, ⟨_, rfl⟩, ⟨_, rfl⟩, ⟨_, rfl⟩, ⟨_, rfl⟩⟩

/-- A state that returns from the last entry of a full stack. -/
def returning : State :=
  { State.reset with sp := 16, stack := Vector.replicate 16 0xFFE, mem := [(0x201, 0xEE)] }

theorem test_witness_ProgramCounterNeverWraps :
    returning.Inv ∧ returning.Executes .ret ∧ ∃ t, step returning = .next t ∧ t.status = .running :=
  ⟨⟨by decide, fun k _ => by show (returning.stack[k]).toNat ≤ 0xFFE; revert k; decide, by unfold State.PcInRange; decide⟩,
    ⟨rfl, by decide, by decide⟩, _, rfl, rfl⟩

theorem test_witness_EqualReadsMakeEqualMemories :
    let m := Memory.writeBytes [] 0xFFE [1, 2]
    let n := Memory.writeBytes [] 0xFFE [1, 2]
    Memory.wf m = true ∧ Memory.wf n = true ∧ ∀ a < 4096, Memory.read m a = Memory.read n a :=
  ⟨by decide, by decide, fun _ _ => rfl⟩

theorem test_witness_StoredCodeIsFetched :
    let s := { regs [(14, 0x12), (15, 0x34)] with i := 0xFF0 }
    ∃ t, s.i.toNat + (15 : RegIx).val < 4096 ∧ (14 : RegIx).val + 1 < 16 ∧ (14 : RegIx).val + 1 ≤ (15 : RegIx).val
      ∧ exec (.storeRegs 15) s = .next t ∧ (0xFFE : Word).toNat = s.i.toNat + (14 : RegIx).val :=
  ⟨_, by decide, by decide, by decide, rfl, by decide⟩

theorem test_witness_CallPushesItsAddress :
    State.reset.sp.val < 16 ∧ { State.reset with sp := 15 }.sp.val < 16 := by decide

theorem test_witness_ReturnPopsAndAddsTwo :
    { State.reset with sp := 1 }.sp.val = (0 : Fin 16).val + 1 ∧ { State.reset with sp := 16 }.sp.val = (15 : Fin 16).val + 1 := by
  decide

/-- Both clauses. -/
theorem test_witness_StackLimitsHalt : { State.reset with sp := 16 }.sp.val = 16 ∧ State.reset.sp.val = 0 := by decide

theorem test_witness_ReturnGoesAfterTheCall :
    let s := { State.reset with sp := 15 }
    s.sp.val < 16 ∧ ∃ t u w, exec (.call 0x345) s = .next t ∧ u.sp = t.sp ∧ u.stack = t.stack ∧ exec .ret u = .next w :=
  ⟨by decide, _, _, _, rfl, rfl, rfl, rfl⟩

theorem test_witness_KeySkips : ((regs [(5, 15)]).v[5]).toNat = (15 : KeyIx).val := by decide

theorem test_witness_KeyIndexPastKeysHalts : 16 ≤ ((regs [(5, 16)]).v[5]).toNat := by decide

/-- The clauses on `X = F` and on `X` other than `F` both have operands. -/
theorem test_witness_clauses_on_X : (14 : RegIx) ≠ 15 ∧ (15 : RegIx) = 15 := by decide

theorem test_witness_FlagResultSummary : (0 : RegIx) ≠ 15 := by decide

/-- A step that draws and one that does not. -/
theorem test_witness_OnlyRandomDraws :
    (ready State.reset 0xC30F).Executes (.rnd 3 0x0F) ∧ (∃ t, step (ready State.reset 0xC30F) = .next t)
      ∧ (¬ ∃ x nn, (ready State.reset 0x6000).Executes (.rnd x nn)) ∧ ∃ t, step (ready State.reset 0x6000) = .next t := by
  refine ⟨⟨rfl, by decide, by decide⟩, ⟨_, rfl⟩, ?_, _, rfl⟩
  rintro ⟨x, nn, h⟩
  have : (ready State.reset 0x6000).Executes (.ldImm 0 0) := ⟨rfl, by decide, by decide⟩
  cases h.unique this

theorem test_witness_BcdStoresDigits : { State.reset with i := 0xFFD }.i.toNat + 2 < 4096 := by decide

theorem test_witness_StoreRegistersAdvancesIndex : { State.reset with i := 0xFF0 }.i.toNat + (15 : RegIx).val < 4096 := by decide

theorem test_witness_LoadRegistersAdvancesIndex : { State.reset with i := 0xFFF }.i.toNat + (0 : RegIx).val < 4096 := by decide

/-- Every clause at its first value out of range. -/
theorem test_witness_DataAccessPastMemoryHalts :
    4096 ≤ { State.reset with i := 0xFFE }.i.toNat + 2 ∧ 4096 ≤ { State.reset with i := 0xFF1 }.i.toNat + (15 : RegIx).val
      ∧ 0 < (15 : Nibble).toNat ∧ 4096 ≤ { State.reset with i := 0xFF2 }.i.toNat + (15 : Nibble).toNat - 1 := by decide

/-- The registers became zero in between, `I` was set back, and the bytes were left alone. -/
theorem test_witness_DumpLoadRoundTrip :
    let s := { regs [(0, 0x11), (1, 0x22), (2, 0x33)] with i := 0x300 }
    ∃ t w, s.i.toNat + (2 : RegIx).val < 4096 ∧ exec (.storeRegs 2) s = .next t
      ∧ { State.reset with mem := t.mem, i := s.i }.i = s.i ∧ exec (.loadRegs 2) { State.reset with mem := t.mem, i := s.i } = .next w :=
  ⟨_, _, by decide, rfl, rfl, rfl⟩

/-- Both disjuncts of the premise, a sprite that collides and one that does not. -/
theorem test_witness_DrawXorsSprite :
    (0 : Nibble).toNat = 0 ∧ { State.reset with i := 0xFF1 }.i.toNat + (15 : Nibble).toNat ≤ 4096
      ∧ (sprites [(0, 62), (1, 31)]).SpriteCovers 0 1 3 63 31 ∧ ¬ (sprites [(0, 64), (1, 31)]).SpriteCovers 0 1 3 63 31 :=
  ⟨by decide, by decide, ⟨0, by decide, 1, by decide, by decide, by decide, by decide⟩,
    fun ⟨_, _, c, _, h, _⟩ => by
      have : (64 : Nat) + c = 63 := h.symm
      omega⟩

theorem test_witness_DrawTwiceRestoresSurface :
    let s := sprites [(0, 62), (1, 31)]
    ∃ t u, exec (.drw 0 1 3) s = .next t ∧ t.v[0] = s.v[0] ∧ t.v[1] = s.v[1] ∧ exec (.drw 0 1 3) t = .next u :=
  ⟨_, _, rfl, rfl, rfl, rfl⟩

/-- With a sprite that draws a pixel, and (at column 64) with one that draws none. -/
theorem test_witness_ClearThenDrawTwiceFlags :
    ∀ x0 ∈ [(62 : Byte), 64], let s := sprites [(0, x0), (1, 31)]
      ((3 : Nibble).toNat = 0 ∨ s.i.toNat + (3 : Nibble).toNat ≤ 4096)
        ∧ ∃ c t u, exec .cls s = .next c ∧ exec (.drw 0 1 3) c = .next t ∧ t.v[0] = s.v[0] ∧ t.v[1] = s.v[1]
          ∧ exec (.drw 0 1 3) t = .next u := by
  simp only [List.forall_mem_cons, List.not_mem_nil, false_implies, implies_true, and_true]
  exact ⟨⟨.inr (by decide), _, _, _, rfl, rfl, rfl, rfl, rfl⟩, ⟨.inr (by decide), _, _, _, rfl, rfl, rfl, rfl, rfl⟩⟩

/-- The three clauses on a step. -/
theorem test_witness_TimerMoves :
    (ready State.reset 0xF307).Executes (.ldVxDt 3) ∧ (ready State.reset 0xF315).Executes (.ldDtVx 3)
      ∧ (ready State.reset 0xF318).Executes (.ldStVx 3) :=
  ⟨⟨rfl, by decide, by decide⟩, ⟨rfl, by decide, by decide⟩, ⟨rfl, by decide, by decide⟩⟩

/-- Every key down, and key 0 alone. -/
theorem test_witness_KeyWaitTakesHighestKey :
    let s := { State.reset with key := Vector.replicate 16 true }
    let t := { State.reset with key := State.reset.key.set 0 true }
    (s.key[(15 : KeyIx)] = true ∧ ∀ j : KeyIx, 15 < j → s.key[j] = false)
      ∧ t.key[(0 : KeyIx)] = true ∧ ∀ j : KeyIx, 0 < j → t.key[j] = false := by decide

theorem test_witness_KeyWaitRepeats :
    (ready State.reset 0xF20A).Executes (.ldVxKey 2) ∧ ∀ k : KeyIx, (ready State.reset 0xF20A).key[k] = false :=
  ⟨⟨rfl, by decide, by decide⟩, by decide⟩

/-- The largest ROM that fits, and its last byte. -/
theorem test_witness_LoaderCopiesRom :
    (List.replicate 3584 (0x5A : Byte)).length ≤ 3584 ∧ 3583 < (List.replicate 3584 (0x5A : Byte)).length := by
  simp only [List.length_replicate]
  decide

theorem test_witness_LoaderErrorsChangeNothing : 3584 < (List.replicate 3585 (0x5A : Byte)).length := by
  simp only [List.length_replicate]
  decide

end Sys2Proof.Tests
end

section
/-! PROOFS. Flow control (spec/41_flow_control.md). -/

namespace Sys2Proof.Machine

/-- The 12-bit address operand is extended with zeros, so it keeps its value (R73). -/
@[simp] theorem zextAddr_toNat (nnn : Addr12) : (zextAddr nnn).toNat = nnn.toNat :=
  BitVec.toNat_setWidth_of_le (by decide)

/-- `1NNN` can do one thing only: jump (R112). -/
theorem exec_jp (nnn : Addr12) (s : State) : exec (.jp nnn) s = .next (s.jump (zextAddr nnn)) := rfl

/-- The word of `1NNN` lies in family 1 (R75). -/
theorem encode_jp_family (nnn : Addr12) : encode (.jp nnn) &&& 0xF000#16 = 0x1000#16 :=
  Laws.EncodeMatchesRow.mask_family 0x1 nnn

/-- A jump changes `pc` only. -/
theorem State.jump_eq_update_pc (s : State) (w : Word) : s.jump w = { s with pc := (s.jump w).pc } := rfl

/-- Settles O26: the only outcome of `1NNN` is a jump to the zero-extended `NNN`, and a jump writes `pc` only. -/
theorem jumpReplacesPc : Obligations.JumpReplacesPc := by
  intro nnn s
  refine ⟨encode_jp_family nnn, s.jump (zextAddr nnn), exec_jp nnn s, ?_, s.jump_eq_update_pc _⟩
  rw [State.jump_pc, zextAddr_toNat]

end Sys2Proof.Machine
end

section
/-! PROOFS. Register load, the add without a flag and the bitwise operations (spec/43_alu.md, R131 to R136). -/

namespace Sys2Proof.Machine

/-- The word of an instruction under the mask of its row is the match of its row (R75). -/
theorem encode_and_mask {i : Instr} (h : Laws.EncodeMatchesRow.Statement i) : encode i &&& i.row.mask = i.row.value :=
  eq_of_beq h

/-- Addition of bytes is modulo 256 (R130). -/
theorem byte_add_eq (a b : Byte) : a + b = BitVec.ofNat 8 ((a.toNat + b.toNat) % 256) :=
  BitVec.eq_of_toNat_eq (by simp [BitVec.toNat_add])

/-- A register write and the fallthrough write that register and `pc` only (R96 (a)). -/
theorem State.setReg_advance (s : State) (x : RegIx) (b : Byte) :
    (s.setReg x b).advance = { s with v := s.v.set x b, pc := s.pc + 2 } := rfl

theorem exec_ldImm (x : RegIx) (nn : Byte) (s : State) : exec (.ldImm x nn) s = .next (s.setReg x nn).advance := rfl

theorem exec_addImm (x : RegIx) (nn : Byte) (s : State) :
    exec (.addImm x nn) s = .next (s.setReg x (s.v[x] + nn)).advance := rfl

theorem exec_ldReg (x y : RegIx) (s : State) : exec (.ldReg x y) s = .next (s.setReg x s.v[y]).advance := rfl

theorem exec_orReg (x y : RegIx) (s : State) :
    exec (.orReg x y) s = .next (s.setReg x (s.v[x] ||| s.v[y])).advance := rfl

theorem exec_andReg (x y : RegIx) (s : State) :
    exec (.andReg x y) s = .next (s.setReg x (s.v[x] &&& s.v[y])).advance := rfl

theorem exec_xorReg (x y : RegIx) (s : State) :
    exec (.xorReg x y) s = .next (s.setReg x (s.v[x] ^^^ s.v[y])).advance := rfl

/-- The sum of `7XNN` as an integer modulo 256, with no flag (R132). -/
theorem exec_addImm_mod (x : RegIx) (nn : Byte) (s : State) :
    exec (.addImm x nn) s
      = .next { s with v := s.v.set x (BitVec.ofNat 8 (((s.v[x]).toNat + nn.toNat) % 256)), pc := s.pc + 2 } := by
  rw [exec_addImm, State.setReg_advance, byte_add_eq]

/-- An instruction that writes one register and falls through, read bit by bit: the bits of the byte written, and the frame. -/
theorem setReg_advance_bits {i : Instr} {x : RegIx} {b : Byte} {s : State} {bit : Nat → Bool}
    (he : exec i s = .next (s.setReg x b).advance) (hbit : ∀ n, b.getLsbD n = bit n) :
    ∃ t, exec i s = .next t ∧ (∀ k : RegIx, k ≠ x → t.v[k] = s.v[k]) ∧ t = { s with v := t.v, pc := s.pc + 2 }
      ∧ ∀ n < 8, (t.v[x]).getLsbD n = bit n := by
  refine ⟨_, he, fun k hk => ?_, s.setReg_advance x b, fun n _ => ?_⟩
  · exact (Regs.set_or s.v x b k).resolve_right hk
  · simp [hbit]

/-- Settles O35: each of the six instructions writes `VX` and falls through; the sum wraps modulo 256, the bitwise results are read
bit by bit, and each word is the one its row of the opcode map gives. -/
theorem loadsAddAndLogic : Obligations.LoadsAddAndLogic := by
  intro x y nn s
  refine ⟨exec_ldImm x nn s, exec_addImm_mod x nn s, exec_ldReg x y s, ?bitwise,
    encode_and_mask (Laws.EncodeMatchesRow.ldImm x nn), encode_and_mask (Laws.EncodeMatchesRow.addImm x nn),
    encode_and_mask (Laws.EncodeMatchesRow.ldReg x y), encode_and_mask (Laws.EncodeMatchesRow.orReg x y),
    encode_and_mask (Laws.EncodeMatchesRow.andReg x y), encode_and_mask (Laws.EncodeMatchesRow.xorReg x y)⟩
  case bitwise =>
    simp only [List.forall_mem_cons, List.not_mem_nil, false_implies, implies_true, and_true]
    exact ⟨setReg_advance_bits (exec_orReg x y s) fun _ => BitVec.getLsbD_or,
      setReg_advance_bits (exec_andReg x y s) fun _ => BitVec.getLsbD_and,
      setReg_advance_bits (exec_xorReg x y s) fun _ => BitVec.getLsbD_xor⟩

end Sys2Proof.Machine
end

section
/-! PROOFS. The index register (spec/44_index_memory.md, R150). -/

namespace Sys2Proof.Machine

/-- A write of `I` and the fallthrough write `I` and `pc` only (R96 (a)). -/
theorem State.setI_advance (s : State) (w : Word) : (s.setI w).advance = { s with i := w, pc := s.pc + 2 } := rfl

/-- `ANNN` can do one thing only: write the zero-extended `NNN` to `I` and fall through (R150). -/
theorem exec_ldI (nnn : Addr12) (s : State) : exec (.ldI nnn) s = .next (s.setI (zextAddr nnn)).advance := rfl

/-- Settles O42: the word is the one its row of the opcode map gives, and the only outcome of `ANNN` writes the zero-extended `NNN` to
`I`, whatever `I` was before. -/
theorem loadIndexImmediate : Obligations.LoadIndexImmediate := by
  intro nnn s
  refine ⟨encode_and_mask (Laws.EncodeMatchesRow.ldI nnn), _, exec_ldI nnn s, ?_, s.setI_advance _⟩
  rw [State.setI_advance, zextAddr_toNat]

end Sys2Proof.Machine
end

section
/-! PROOFS. The timer moves `FX07`, `FX15`, `FX18` and the tick of the step that executes them (spec/46_keys_timers.md, R173 to R175). -/

namespace Sys2Proof.Machine

/-- `FX07` can do one thing only: copy `DT` to `VX` and fall through (R173). -/
theorem exec_ldVxDt (x : RegIx) (s : State) : exec (.ldVxDt x) s = .next (s.setReg x s.dt).advance := rfl

/-- `FX15` can do one thing only: copy `VX` to `DT` and fall through (R174). -/
theorem exec_ldDtVx (x : RegIx) (s : State) : exec (.ldDtVx x) s = .next { s with dt := s.v[x], pc := s.pc + 2 } := rfl

/-- `FX18` can do one thing only: copy `VX` to `ST` and fall through (R175). -/
theorem exec_ldStVx (x : RegIx) (s : State) : exec (.ldStVx x) s = .next { s with st := s.v[x], pc := s.pc + 2 } := rfl

/-- A step whose instruction leaves `STATUS` as it was ends with the Timer Tick of what the instruction left (R90, R98). -/
theorem step_eq_tick {i : Instr} {s u : State} (hx : s.Executes i) (he : exec i s = .next u) (hu : u.status = s.status) :
    step s = .next u.tick := by
  have hstep : step s = .next u.endStep := by rw [step_of_executes hx, he]
  obtain ⟨hrun, -, -⟩ := hx
  rcases u.endStep_cases with ⟨-, htick⟩ | ⟨hhalt, -⟩
  · rw [hstep, htick]
  · exact absurd (hu.trans hrun) hhalt

/-- Settles O54: each of the three moves has one outcome, its copy and the fallthrough; the step that executes it ends with the tick of
that outcome, and a tick takes one from a timer, not below zero; each word is the one its row of the opcode map gives. -/
theorem timerMoves : Obligations.TimerMoves := by
  intro x s
  refine ⟨⟨_, exec_ldVxDt x s, ?copied, fun k hk => ?others, s.setReg_advance x s.dt⟩, exec_ldDtVx x s, exec_ldStVx x s,
    fun hx => ⟨_, step_eq_tick hx (exec_ldVxDt x s) rfl, ?copiedAtEnd, ?dtRead⟩,
    fun hx => ⟨_, step_eq_tick hx (exec_ldDtVx x s) rfl, tickTimer_toNat s.v[x]⟩,
    fun hx => ⟨_, step_eq_tick hx (exec_ldStVx x s) rfl, tickTimer_toNat s.v[x]⟩,
    encode_and_mask (Laws.EncodeMatchesRow.ldVxDt x), encode_and_mask (Laws.EncodeMatchesRow.ldDtVx x),
    encode_and_mask (Laws.EncodeMatchesRow.ldStVx x)⟩
  case copied | copiedAtEnd => simp
  case others => exact (Regs.set_or s.v x s.dt k).resolve_right hk
  case dtRead => simp [tickTimer_toNat]

end Sys2Proof.Machine
end

section
/-! PROOFS. The Loader's errors (spec/70_reset_and_hazards.md, R215). -/

namespace Sys2Proof.Machine

/-- A ROM of more than 3584 bytes is rejected before any byte is copied (R215). -/
theorem State.loadProgram_bytes_of_too_large (s : State) {rom : List Byte} (h : 3584 < rom.length) :
    s.loadProgram (.bytes rom) = (s, some .romTooLarge) := if_pos h

/-- A failure of the supplier is handed on (R215). -/
theorem State.loadProgram_failed (s : State) : s.loadProgram .failed = (s, some .retrievalFailed) := rfl

/-- Settles O58: each of the Loader's two failing branches answers the machine it was given, with its own error. -/
theorem loaderErrorsChangeNothing : Obligations.LoaderErrorsChangeNothing :=
  fun s => ⟨fun _ hlong => s.loadProgram_bytes_of_too_large hlong, s.loadProgram_failed⟩

end Sys2Proof.Machine
end

section
/-! PROOFS. The decoder, the encoder and the opcode map (spec/30_encoding.md, R72 to R78). -/

namespace Sys2Proof

/-! ### The fields as numbers, and a word from its fields -/

theorem fieldF_toNat (w : Word) : (fieldF w).toNat = w.toNat / 4096 := by
  have := w.isLt
  simp only [fieldF, BitVec.extractLsb'_toNat, Nat.shiftRight_eq_div_pow]
  omega

theorem fieldN_toNat (w : Word) : (fieldN w).toNat = w.toNat % 16 := by simp [fieldN]

theorem fieldNN_toNat (w : Word) : (fieldNN w).toNat = w.toNat % 256 := by simp [fieldNN]

theorem fieldNNN_toNat (w : Word) : (fieldNNN w).toNat = w.toNat % 4096 := by simp [fieldNNN]

theorem formatA_of_fields {w : Word} {f : BitVec 4} (hF : fieldF w = f) : formatA f (fieldNNN w) = w :=
  hF ▸ formatA_fields w

theorem formatXI_of_fields {w : Word} {f : BitVec 4} {nn : Byte} (hF : fieldF w = f) (hN : fieldNN w = nn) :
    formatXI f (fieldX w) nn = w :=
  hF ▸ hN ▸ formatXI_fields w

theorem formatXY_of_fields {w : Word} {f : BitVec 4} {n : Nibble} (hF : fieldF w = f) (hN : fieldN w = n) :
    formatXY f (fieldX w) (fieldY w) n = w :=
  hF ▸ hN ▸ formatXY_fields w

/-! ### Decode and encode -/

theorem encode_of_decodeFamily0 {w : Word} {i : Instr} (hF : fieldF w = 0x0#4) (h : decodeFamily0 w = some i) :
    encode i = w := by
  unfold decodeFamily0 at h
  split at h <;> cases h
  all_goals
    next hN => rw [← formatA_of_fields hF, hN]; rfl

theorem encode_of_decodeFamily8 {w : Word} {i : Instr} (hF : fieldF w = 0x8#4) (h : decodeFamily8 w = some i) :
    encode i = w := by
  unfold decodeFamily8 at h
  split at h <;> cases h
  all_goals exact formatXY_of_fields hF ‹_›

theorem encode_of_decodeFamilyE {w : Word} {i : Instr} (hF : fieldF w = 0xE#4) (h : decodeFamilyE w = some i) :
    encode i = w := by
  unfold decodeFamilyE at h
  split at h <;> cases h
  all_goals exact formatXI_of_fields hF ‹_›

theorem encode_of_decodeFamilyF {w : Word} {i : Instr} (hF : fieldF w = 0xF#4) (h : decodeFamilyF w = some i) :
    encode i = w := by
  unfold decodeFamilyF at h
  split at h <;> cases h
  all_goals exact formatXI_of_fields hF ‹_›

/-- There are sixteen families (R72). -/
theorem fieldF_cases (w : Word) :
    fieldF w = 0x0#4 ∨ fieldF w = 0x1#4 ∨ fieldF w = 0x2#4 ∨ fieldF w = 0x3#4 ∨ fieldF w = 0x4#4 ∨ fieldF w = 0x5#4
      ∨ fieldF w = 0x6#4 ∨ fieldF w = 0x7#4 ∨ fieldF w = 0x8#4 ∨ fieldF w = 0x9#4 ∨ fieldF w = 0xA#4 ∨ fieldF w = 0xB#4
      ∨ fieldF w = 0xC#4 ∨ fieldF w = 0xD#4 ∨ fieldF w = 0xE#4 ∨ fieldF w = 0xF#4 := by
  generalize fieldF w = f
  revert f
  decide

/-- What the decoder answers is an instruction of that word (R74 against R71), family by family. -/
theorem encode_of_decodeWord {w : Word} {i : Instr} (h : decodeWord w = some i) : encode i = w := by
  rcases fieldF_cases w with hF | hF | hF | hF | hF | hF | hF | hF | hF | hF | hF | hF | hF | hF | hF | hF <;>
    simp only [decodeWord, hF] at h
  · exact encode_of_decodeFamily0 hF h
  · cases h; exact formatA_of_fields hF
  · cases h; exact formatA_of_fields hF
  · cases h; exact formatXI_of_fields hF rfl
  · cases h; exact formatXI_of_fields hF rfl
  · split at h <;> cases h
    exact formatXY_of_fields hF ‹_›
  · cases h; exact formatXI_of_fields hF rfl
  · cases h; exact formatXI_of_fields hF rfl
  · exact encode_of_decodeFamily8 hF h
  · split at h <;> cases h
    exact formatXY_of_fields hF ‹_›
  · cases h; exact formatA_of_fields hF
  · cases h; exact formatA_of_fields hF
  · cases h; exact formatXI_of_fields hF rfl
  · cases h; exact formatXY_of_fields hF rfl
  · exact encode_of_decodeFamilyE hF h
  · exact encode_of_decodeFamilyF hF h

/-- The word of an instruction decodes back to it: its layout gives back the fields it was made of. -/
theorem decodeWord_encode (i : Instr) : decodeWord (encode i) = some i := by
  cases i
  case cls | ret => decide
  all_goals simp [encode, decodeWord, decodeFamily8, decodeFamilyE, decodeFamilyF]

/-- Settles O2: what is decoded is encoded back to the word, and the word of an instruction decodes to it. -/
theorem decodeAgreesWithEncode : Obligations.DecodeAgreesWithEncode :=
  fun _ _ => ⟨encode_of_decodeWord, fun h => h ▸ decodeWord_encode _⟩

/-! ### The opcode map -/

/-- Every instruction's word is admitted by its own row (R75). -/
theorem row_admits_encode (i : Instr) : i.row.admits (encode i) = true := by
  cases i
  case cls => exact Laws.EncodeMatchesRow.cls
  case ret => exact Laws.EncodeMatchesRow.ret
  case jp | call | ldI | jpV0 | drw | seImm | sneImm | ldImm | addImm | rnd => exact Laws.EncodeMatchesRow.of_family (by decide)
  case skp | sknp | ldVxDt | ldDtVx | ldStVx | ldVxKey | addI | ldGlyph | ldBcd | storeRegs | loadRegs =>
    exact Laws.EncodeMatchesRow.of_byte (by decide)
  all_goals exact Laws.EncodeMatchesRow.of_nibble (by decide)

/-- A row that fixes the whole word admits that word only. -/
theorem eq_of_admits_word {w value : Word} {m : String} (h : OpcodeRow.admits ⟨m, 0xFFFF#16, value⟩ w = true) : value = w := by
  have hw : w &&& 0xFFFF#16 = value := eq_of_beq h
  rw [← hw]
  exact BitVec.and_allOnes

/-- A row that fixes the family admits words of that family only. -/
theorem fieldF_of_admits {w value : Word} {m : String} {f : BitVec 4} (h : OpcodeRow.admits ⟨m, 0xF000#16, value⟩ w = true)
    (hv : formatA f 0 = value) : fieldF w = f := by
  have hw : w &&& 0xF000#16 = formatA f 0 := (eq_of_beq h).trans hv.symm
  rw [← formatA_fields w, Laws.EncodeMatchesRow.mask_family] at hw
  have hf : formatA (fieldF w) 0 = formatA f 0 := hw
  simpa using congrArg fieldF hf

/-- A row that fixes the family and the low nibble admits words with these two fields only. -/
theorem fields_of_admits_nibble {w value : Word} {m : String} {f : BitVec 4} {n : Nibble}
    (h : OpcodeRow.admits ⟨m, 0xF00F#16, value⟩ w = true) (hv : formatXY f 0 0 n = value) :
    formatXY f (fieldX w) (fieldY w) n = w := by
  have hw : w &&& 0xF00F#16 = formatXY f 0 0 n := (eq_of_beq h).trans hv.symm
  rw [← formatXY_fields w, Laws.EncodeMatchesRow.mask_nibble] at hw
  exact formatXY_of_fields (by simpa using congrArg fieldF hw) (by simpa using congrArg fieldN hw)

/-- A row that fixes the family and the low byte admits words with these two fields only. -/
theorem fields_of_admits_byte {w value : Word} {m : String} {f : BitVec 4} {nn : Byte}
    (h : OpcodeRow.admits ⟨m, 0xF0FF#16, value⟩ w = true) (hv : formatXI f 0 nn = value) :
    formatXI f (fieldX w) nn = w := by
  have hw : w &&& 0xF0FF#16 = formatXI f 0 nn := (eq_of_beq h).trans hv.symm
  rw [← formatXI_fields w, Laws.EncodeMatchesRow.mask_byte] at hw
  exact formatXI_of_fields (by simpa using congrArg fieldF hw) (by simpa using congrArg fieldNN hw)

/-- A word that a row admits is the word of an instruction of that row: row by row, in the order of R75. -/
theorem exists_encode_of_admits (w : Word) :
    ∀ r ∈ opcodeRows.toList, r.admits w = true → ∃ i, encode i = w ∧ i.row = r := by
  simp only [opcodeRows, Vector.toList_mk, List.forall_mem_cons, List.not_mem_nil, false_implies, implies_true, and_true]
  refine ⟨fun h => ⟨.cls, eq_of_admits_word h, rfl⟩, fun h => ⟨.ret, eq_of_admits_word h, rfl⟩,
    fun h => ⟨.jp _, formatA_of_fields (fieldF_of_admits h (by decide)), rfl⟩,
    fun h => ⟨.call _, formatA_of_fields (fieldF_of_admits h (by decide)), rfl⟩,
    fun h => ⟨.seImm _ _, formatXI_of_fields (fieldF_of_admits h (by decide)) rfl, rfl⟩,
    fun h => ⟨.sneImm _ _, formatXI_of_fields (fieldF_of_admits h (by decide)) rfl, rfl⟩,
    fun h => ⟨.seReg _ _, fields_of_admits_nibble h (by decide), rfl⟩,
    fun h => ⟨.sneReg _ _, fields_of_admits_nibble h (by decide), rfl⟩,
    fun h => ⟨.ldImm _ _, formatXI_of_fields (fieldF_of_admits h (by decide)) rfl, rfl⟩,
    fun h => ⟨.addImm _ _, formatXI_of_fields (fieldF_of_admits h (by decide)) rfl, rfl⟩,
    fun h => ⟨.ldReg _ _, fields_of_admits_nibble h (by decide), rfl⟩,
    fun h => ⟨.orReg _ _, fields_of_admits_nibble h (by decide), rfl⟩,
    fun h => ⟨.andReg _ _, fields_of_admits_nibble h (by decide), rfl⟩,
    fun h => ⟨.xorReg _ _, fields_of_admits_nibble h (by decide), rfl⟩,
    fun h => ⟨.addReg _ _, fields_of_admits_nibble h (by decide), rfl⟩,
    fun h => ⟨.subReg _ _, fields_of_admits_nibble h (by decide), rfl⟩,
    fun h => ⟨.shr _ _, fields_of_admits_nibble h (by decide), rfl⟩,
    fun h => ⟨.subnReg _ _, fields_of_admits_nibble h (by decide), rfl⟩,
    fun h => ⟨.shl _ _, fields_of_admits_nibble h (by decide), rfl⟩,
    fun h => ⟨.ldI _, formatA_of_fields (fieldF_of_admits h (by decide)), rfl⟩,
    fun h => ⟨.jpV0 _, formatA_of_fields (fieldF_of_admits h (by decide)), rfl⟩,
    fun h => ⟨.rnd _ _, formatXI_of_fields (fieldF_of_admits h (by decide)) rfl, rfl⟩,
    fun h => ⟨.drw _ _ _, formatXY_of_fields (fieldF_of_admits h (by decide)) rfl, rfl⟩,
    fun h => ⟨.skp _, fields_of_admits_byte h (by decide), rfl⟩,
    fun h => ⟨.sknp _, fields_of_admits_byte h (by decide), rfl⟩,
    fun h => ⟨.ldVxDt _, fields_of_admits_byte h (by decide), rfl⟩,
    fun h => ⟨.ldDtVx _, fields_of_admits_byte h (by decide), rfl⟩,
    fun h => ⟨.ldStVx _, fields_of_admits_byte h (by decide), rfl⟩,
    fun h => ⟨.ldVxKey _, fields_of_admits_byte h (by decide), rfl⟩,
    fun h => ⟨.addI _, fields_of_admits_byte h (by decide), rfl⟩,
    fun h => ⟨.ldGlyph _, fields_of_admits_byte h (by decide), rfl⟩,
    fun h => ⟨.ldBcd _, fields_of_admits_byte h (by decide), rfl⟩,
    fun h => ⟨.storeRegs _, fields_of_admits_byte h (by decide), rfl⟩,
    fun h => ⟨.loadRegs _, fields_of_admits_byte h (by decide), rfl⟩⟩

/-- Settles O3: a word a row admits has the fields the row fixes, and so is the word of an instruction of that row; conversely the word
of an instruction is admitted by its row. Decoding and encoding agree (O2). -/
theorem decodeMatchesOpcodeMap : Obligations.DecodeMatchesOpcodeMap := by
  intro w r hr
  constructor
  · intro h
    obtain ⟨i, hi, hrow⟩ := exists_encode_of_admits w r hr h
    exact ⟨i, (decodeAgreesWithEncode w i).mpr hi, hrow⟩
  · rintro ⟨i, hi, rfl⟩
    rw [← encode_of_decodeWord hi]
    exact row_admits_encode i

theorem row_mem_opcodeRows (i : Instr) : i.row ∈ opcodeRows.toList := by
  rw [Vector.mem_toList_iff]
  exact Vector.getElem_mem _

/-- A word is refused by the decoder exactly when no row admits it (R78). -/
theorem decodeWord_eq_none_iff_rows (w : Word) :
    decodeWord w = none ↔ ∀ r ∈ opcodeRows.toList, r.admits w = false := by
  constructor
  · intro h r hr
    refine Bool.eq_false_iff.mpr fun hadm => ?_
    obtain ⟨i, hi, -⟩ := (decodeMatchesOpcodeMap w r hr).mp hadm
    rw [h] at hi
    cases hi
  · intro h
    refine Option.eq_none_iff_forall_ne_some.mpr fun i hi => ?_
    have hadm := (decodeMatchesOpcodeMap w _ (row_mem_opcodeRows i)).mpr ⟨i, hi, rfl⟩
    rw [h _ (row_mem_opcodeRows i)] at hadm
    cases hadm

theorem wellFormedWord_eq_false (w : Word) : wellFormedWord w = false ↔ decodeWord w = none := by
  simp only [wellFormedWord, List.any_eq_false, Bool.not_eq_true, decodeWord_eq_none_iff_rows]

/-! ### The illegal words -/

theorem decodeFamily0_eq_none (w : Word) : decodeFamily0 w = none ↔ w.toNat % 4096 ≠ 0x0E0 ∧ w.toNat % 4096 ≠ 0x0EE := by
  rw [← fieldNNN_toNat]
  unfold decodeFamily0
  split <;> simp_all [BitVec.toNat_eq]

theorem decodeFamily8_eq_none (w : Word) : decodeFamily8 w = none ↔ 0x8 ≤ w.toNat % 16 ∧ w.toNat % 16 ≠ 0xE := by
  rw [← fieldN_toNat]
  have := (fieldN w).isLt
  unfold decodeFamily8
  dsimp only
  split <;> simp_all [BitVec.toNat_eq]
  omega

theorem decodeFamilyE_eq_none (w : Word) : decodeFamilyE w = none ↔ w.toNat % 256 ≠ 0x9E ∧ w.toNat % 256 ≠ 0xA1 := by
  rw [← fieldNN_toNat]
  unfold decodeFamilyE
  dsimp only
  split <;> simp_all [BitVec.toNat_eq]

theorem decodeFamilyF_eq_none (w : Word) :
    decodeFamilyF w = none ↔ w.toNat % 256 ∉ [0x07, 0x0A, 0x15, 0x18, 0x1E, 0x29, 0x33, 0x55, 0x65] := by
  rw [← fieldNN_toNat]
  unfold decodeFamilyF
  dsimp only
  split <;> simp_all [BitVec.toNat_eq]

theorem fieldN_eq_zero (w : Word) : fieldN w = 0 ↔ w.toNat % 16 = 0 := by
  rw [← fieldN_toNat, BitVec.toNat_eq]
  rfl

/-- Settles O4: the families 1 to 4, 6, 7 and A to D refuse no word; each of the other six refuses the words of its own class. -/
theorem unlistedWordsAreUnknown : Obligations.UnlistedWordsAreUnknown := by
  intro w
  have hfamily := fieldF_toNat w
  rcases fieldF_cases w with hF | hF | hF | hF | hF | hF | hF | hF | hF | hF | hF | hF | hF | hF | hF | hF <;>
    simp only [decodeWord, hF, decodeFamily0_eq_none, decodeFamily8_eq_none, decodeFamilyE_eq_none, decodeFamilyF_eq_none,
      ite_eq_right_iff, fieldN_eq_zero, reduceCtorEq, imp_false, false_iff, List.mem_cons, List.not_mem_nil, or_false,
      BitVec.toNat_ofNat, BitVec.reduceEq, not_false_eq_true] at hfamily ⊢ <;>
    omega

end Sys2Proof
end

section
/-! PROOFS. Where each of the nine instructions that can raise completes and where it raises (spec/60_exceptions.md, R181 to R188). -/

namespace Sys2Proof.Machine

/-! ### The instructions with two outcomes, at their conditions -/

theorem exec_ret_of_pos {s : State} (h : s.sp.val ≠ 0) :
    exec .ret s = .next ({ s with sp := ⟨s.sp.val - 1, by omega⟩ }.jump (s.stack[s.sp.val - 1]'(by omega) + 2)) := by
  rcases exec_ret_cases s with ⟨h0, -⟩ | ⟨_, he⟩
  · exact absurd h0 h
  · exact he

theorem exec_ret_of_zero {s : State} (h : s.sp.val = 0) : exec .ret s = raise .stackUnderflow s.pc s :=
  (exec_ret_cases s).elim And.right fun ⟨h', _⟩ => absurd h h'

theorem exec_call_of_lt {s : State} (nnn : Addr12) (h : s.sp.val < 16) :
    exec (.call nnn) s
      = .next ({ s with stack := s.stack.set s.sp.val s.pc h, sp := ⟨s.sp.val + 1, by omega⟩ }.jump (zextAddr nnn)) := by
  rcases exec_call_cases nnn s with ⟨h0, -⟩ | ⟨_, he⟩
  · omega
  · exact he

theorem exec_call_of_full {s : State} (nnn : Addr12) (h : s.sp.val = 16) :
    exec (.call nnn) s = raise .stackOverflow s.pc s :=
  (exec_call_cases nnn s).elim And.right fun ⟨h', _⟩ => absurd h h'.ne

theorem exec_ldBcd_of_inRange {s : State} (x : RegIx) (h : s.i.toNat + 2 < 4096) :
    exec (.ldBcd x) s = .next { s with mem := Memory.writeBytes s.mem s.i.toNat (bcdDigits (s.v[x])) }.advance :=
  (exec_ldBcd_cases x s).elim And.right fun ⟨h', _⟩ => absurd h h'.not_gt

theorem exec_ldBcd_of_outOfRange {s : State} (x : RegIx) (h : 4096 ≤ s.i.toNat + 2) :
    exec (.ldBcd x) s = raise .addressOutOfRange (BitVec.ofNat 16 (max s.i.toNat 4096)) s :=
  (exec_ldBcd_cases x s).elim (fun ⟨h', _⟩ => absurd h h'.not_ge) And.right

theorem exec_storeRegs_of_inRange {s : State} {x : RegIx} (h : s.i.toNat + x.val < 4096) :
    exec (.storeRegs x) s
      = .next ({ s with mem := Memory.writeBytes s.mem s.i.toNat (s.block x) }.setI
          (s.i + BitVec.ofNat 16 (x.val + 1))).advance :=
  (exec_storeRegs_cases x s).elim And.right fun ⟨h', _⟩ => absurd h h'.not_gt

theorem exec_storeRegs_of_outOfRange {s : State} {x : RegIx} (h : 4096 ≤ s.i.toNat + x.val) :
    exec (.storeRegs x) s = raise .addressOutOfRange (BitVec.ofNat 16 (max s.i.toNat 4096)) s :=
  (exec_storeRegs_cases x s).elim (fun ⟨h', _⟩ => absurd h h'.not_ge) And.right

theorem exec_loadRegs_of_inRange {s : State} {x : RegIx} (h : s.i.toNat + x.val < 4096) :
    exec (.loadRegs x) s = .next ((s.loadBlock s.i.toNat x).setI (s.i + BitVec.ofNat 16 (x.val + 1))).advance :=
  (exec_loadRegs_cases x s).elim And.right fun ⟨h', _⟩ => absurd h h'.not_gt

theorem exec_loadRegs_of_outOfRange {s : State} {x : RegIx} (h : 4096 ≤ s.i.toNat + x.val) :
    exec (.loadRegs x) s = raise .addressOutOfRange (BitVec.ofNat 16 (max s.i.toNat 4096)) s :=
  (exec_loadRegs_cases x s).elim (fun ⟨h', _⟩ => absurd h h'.not_ge) And.right

theorem exec_drw_of_inRange {s : State} (x y : RegIx) {n : Nibble} (h : n.toNat = 0 ∨ s.i.toNat + n.toNat ≤ 4096) :
    exec (.drw x y n) s
      = .next ({ s with pix := (s.drawn x y n).1, dcf := true }.setFlag (flagByte (s.drawn x y n).2)).advance := by
  rcases exec_drw_cases x y n s with ⟨-, he⟩ | ⟨h0, h1, -⟩
  · exact he
  · omega

theorem exec_drw_of_outOfRange {s : State} (x y : RegIx) {n : Nibble} (h0 : 0 < n.toNat)
    (h : 4096 ≤ s.i.toNat + n.toNat - 1) :
    exec (.drw x y n) s = raise .addressOutOfRange (BitVec.ofNat 16 (max s.i.toNat 4096)) s := by
  rcases exec_drw_cases x y n s with ⟨h1, -⟩ | ⟨-, -, he⟩
  · omega
  · exact he

theorem exec_skp_of_key {s : State} {x : RegIx} {k : KeyIx} (h : (s.v[x]).toNat = k.val) :
    exec (.skp x) s = .next (s.skipIf s.key[k]) := by
  rcases exec_skp_cases x s with ⟨hk, he⟩ | ⟨h0, -⟩
  · obtain rfl : k = ⟨_, hk⟩ := Fin.ext h.symm
    exact he
  · omega

theorem exec_skp_of_noKey {s : State} {x : RegIx} (h : 16 ≤ (s.v[x]).toNat) :
    exec (.skp x) s = raise .keyIndexOutOfRange ((s.v[x]).setWidth 16) s :=
  (exec_skp_cases x s).elim (fun ⟨h', _⟩ => absurd h h'.not_ge) And.right

theorem exec_sknp_of_key {s : State} {x : RegIx} {k : KeyIx} (h : (s.v[x]).toNat = k.val) :
    exec (.sknp x) s = .next (s.skipIf !s.key[k]) := by
  rcases exec_sknp_cases x s with ⟨hk, he⟩ | ⟨h0, -⟩
  · obtain rfl : k = ⟨_, hk⟩ := Fin.ext h.symm
    exact he
  · omega

theorem exec_sknp_of_noKey {s : State} {x : RegIx} (h : 16 ≤ (s.v[x]).toNat) :
    exec (.sknp x) s = raise .keyIndexOutOfRange ((s.v[x]).setWidth 16) s :=
  (exec_sknp_cases x s).elim (fun ⟨h', _⟩ => absurd h h'.not_ge) And.right

theorem exec_ldVxKey_of_some {s : State} (x : RegIx) {k : KeyIx} (h : s.highestKey = some k) :
    exec (.ldVxKey x) s = .next (s.setReg x (BitVec.ofNat 8 k.val)).advance := by
  rcases exec_ldVxKey_cases x s with ⟨j, hj, he⟩ | ⟨hj, -⟩
  · obtain rfl : j = k := Option.some.inj (hj.symm.trans h)
    exact he
  · rw [h] at hj
    cases hj

theorem exec_ldVxKey_of_none {s : State} (x : RegIx) (h : s.highestKey = none) : exec (.ldVxKey x) s = .next s := by
  rcases exec_ldVxKey_cases x s with ⟨j, hj, -⟩ | ⟨-, he⟩
  · rw [h] at hj
    cases hj
  · exact he

/-! ### The statements -/

theorem State.canComplete_drw (s : State) (x y : RegIx) (n : Nibble) :
    s.CanComplete (.drw x y n) ↔ n.toNat = 0 ∨ s.i.toNat + n.toNat ≤ 4096 := by
  simp only [State.CanComplete]

/-- Settles O60: the nine instructions with a condition, each on both sides of it; the others complete in every state. -/
theorem instructionsCompleteUnlessTheyRaise : Obligations.InstructionsCompleteUnlessTheyRaise := by
  intro i s
  have hsp := s.sp.isLt
  cases i
  case call nnn =>
    exact ⟨fun h => ⟨_, exec_call_of_lt nnn h, rfl⟩, fun h : ¬ s.sp.val < 16 => ⟨_, _, exec_call_of_full nnn (by omega)⟩⟩
  case ret =>
    exact ⟨fun h : 0 < s.sp.val => ⟨_, exec_ret_of_pos h.ne', rfl⟩,
      fun h : ¬ 0 < s.sp.val => ⟨_, _, exec_ret_of_zero (by omega)⟩⟩
  case skp x =>
    exact ⟨fun h => ⟨_, exec_skp_of_key (k := ⟨_, h⟩) rfl, State.skipIf_status _ _⟩,
      fun h => ⟨_, _, exec_skp_of_noKey (Nat.le_of_not_lt h)⟩⟩
  case sknp x =>
    exact ⟨fun h => ⟨_, exec_sknp_of_key (k := ⟨_, h⟩) rfl, State.skipIf_status _ _⟩,
      fun h => ⟨_, _, exec_sknp_of_noKey (Nat.le_of_not_lt h)⟩⟩
  case ldBcd x =>
    exact ⟨fun h => ⟨_, exec_ldBcd_of_inRange x h, rfl⟩, fun h => ⟨_, _, exec_ldBcd_of_outOfRange x (Nat.le_of_not_lt h)⟩⟩
  case storeRegs x =>
    exact ⟨fun h => ⟨_, exec_storeRegs_of_inRange h, rfl⟩, fun h => ⟨_, _, exec_storeRegs_of_outOfRange (Nat.le_of_not_lt h)⟩⟩
  case loadRegs x =>
    exact ⟨fun h => ⟨_, exec_loadRegs_of_inRange h, by simp⟩, fun h => ⟨_, _, exec_loadRegs_of_outOfRange (Nat.le_of_not_lt h)⟩⟩
  case drw x y n =>
    rw [State.canComplete_drw]
    exact ⟨fun h => ⟨_, exec_drw_of_inRange x y h, rfl⟩,
      fun h => ⟨_, _, exec_drw_of_outOfRange x y (by omega) (by omega)⟩⟩
  case ldVxKey x =>
    refine ⟨fun _ => ?_, fun h => absurd trivial h⟩
    rcases exec_ldVxKey_cases x s with ⟨k, -, he⟩ | ⟨-, he⟩ <;> exact ⟨_, he, rfl⟩
  case seImm | sneImm | seReg | sneReg => exact ⟨fun _ => ⟨_, rfl, State.skipIf_status _ _⟩, fun h => absurd trivial h⟩
  all_goals exact ⟨fun _ => ⟨_, rfl, rfl⟩, fun h => absurd trivial h⟩

/-- Settles O48: each of the four accesses fails its range check, which names the lowest offending address. -/
theorem dataAccessPastMemoryHalts : Obligations.DataAccessPastMemoryHalts := by
  intro x y n s
  refine ⟨BitVec.ofNat 16 (max s.i.toNat 4096), ?_, exec_ldBcd_of_outOfRange x, exec_storeRegs_of_outOfRange,
    exec_loadRegs_of_outOfRange, exec_drw_of_outOfRange x y⟩
  have := s.i.isLt
  rw [BitVec.toNat_ofNat]
  omega

/-- Settles O30: a push on a full stack and a pop from an empty one raise. -/
theorem stackLimitsHalt : Obligations.StackLimitsHalt :=
  ⟨fun nnn _ h => exec_call_of_full nnn h, fun _ h => exec_ret_of_zero h⟩

/-- Settles O34: the index is kept by the extension to 16 bits, and both skips raise with it. -/
theorem keyIndexPastKeysHalts : Obligations.KeyIndexPastKeysHalts := by
  intro x s h
  exact ⟨(s.v[x]).setWidth 16, BitVec.toNat_setWidth_of_le (by decide), exec_skp_of_noKey h, exec_sknp_of_noKey h⟩

end Sys2Proof.Machine
end

section
/-! PROOFS. The step (spec/40_step_cycle.md, R90 to R98): what each of its ways out needs, and, from that, everything a step can do. -/

namespace Sys2Proof.Machine

/-! ### The ways out of a step -/

theorem step_of_halted {s : State} (hs : s.status ≠ .running) : step s = .next s := by
  rcases step_cases s with ⟨-, he⟩ | ⟨h, -⟩ | ⟨h, -⟩ | ⟨h, -⟩
  · exact he
  all_goals exact absurd h hs

theorem step_of_fetch_outOfRange {s : State} (hs : s.status = .running) (hpc : 4096 ≤ s.pc.toNat + 1) :
    step s = raise .addressOutOfRange (BitVec.ofNat 16 (max s.pc.toNat 4096)) s := by
  rcases step_cases s with ⟨h, -⟩ | ⟨-, -, he⟩ | ⟨-, h, -⟩ | ⟨-, h, -⟩
  · exact absurd hs h
  · exact he
  all_goals omega

theorem step_of_unknown {s : State} (hs : s.status = .running) (hpc : s.pc.toNat + 1 < 4096)
    (hd : decodeWord s.fetchWord = none) : step s = raise .unknownOpcode s.fetchWord s := by
  rcases step_cases s with ⟨h, -⟩ | ⟨-, h, -⟩ | ⟨-, -, -, he⟩ | ⟨-, -, i, hi, -⟩
  · exact absurd hs h
  · omega
  · exact he
  · rw [hd] at hi
    cases hi

/-- A fatal condition of the instruction is the outcome of the step: no Timer Tick follows it (R94). -/
theorem step_of_raises {s : State} {i : Instr} {c : Cause} {a : Word} (hx : s.Executes i) (he : exec i s = raise c a s) :
    step s = raise c a s := by
  rw [step_of_executes hx, he]
  rfl

/-- A step that meets a line of the table of fatal conditions raises that condition (R181, R188). -/
theorem State.HaltsBy.step_eq_raise {s : State} {c : Cause} {a : Word} (hs : s.status = .running) (h : s.HaltsBy c a) :
    step s = raise c a s := by
  cases h with
  | fetch hpc => exact step_of_fetch_outOfRange hs hpc
  | unknown hpc hw => exact step_of_unknown hs hpc ((wellFormedWord_eq_false _).mp hw)
  | call nnn hpc hd h => exact step_of_raises ⟨hs, hpc, hd⟩ (exec_call_of_full nnn h)
  | ret hpc hd h => exact step_of_raises ⟨hs, hpc, hd⟩ (exec_ret_of_zero h)
  | drw x y n hpc hd h0 h => exact step_of_raises ⟨hs, hpc, hd⟩ (exec_drw_of_outOfRange x y h0 h)
  | ldBcd x hpc hd h => exact step_of_raises ⟨hs, hpc, hd⟩ (exec_ldBcd_of_outOfRange x h)
  | storeRegs x hpc hd h => exact step_of_raises ⟨hs, hpc, hd⟩ (exec_storeRegs_of_outOfRange h)
  | loadRegs x hpc hd h => exact step_of_raises ⟨hs, hpc, hd⟩ (exec_loadRegs_of_outOfRange h)
  | skp x hpc hd h => exact step_of_raises ⟨hs, hpc, hd⟩ (exec_skp_of_noKey h)
  | sknp x hpc hd h => exact step_of_raises ⟨hs, hpc, hd⟩ (exec_sknp_of_noKey h)

theorem State.endStep_of_running {t : State} (h : t.status = .running) : t.endStep = t.tick :=
  t.endStep_cases.elim And.right fun ⟨h', _⟩ => absurd h h'

theorem State.endStep_of_halted {t : State} (h : t.status ≠ .running) : t.endStep = t :=
  t.endStep_cases.elim (fun ⟨h', _⟩ => absurd h' h) And.right

/-! ### Everything a step can do -/

/-- A step does nothing (when halted), raises the fatal condition whose line of the table the state meets, or completes an instruction,
which keeps to its row of spec/10_state.md R34, and ticks. -/
theorem step_outcome (s : State) :
    (s.status ≠ .running ∧ step s = .next s)
      ∨ (s.status = .running ∧ ∃ c a, s.HaltsBy c a ∧ step s = raise c a s)
      ∨ ∃ i u, s.Executes i ∧ exec i s = .next u ∧ KeepsRow i s u ∧ step s = .next u.tick := by
  rcases step_cases s with ⟨hs, he⟩ | ⟨hs, hpc, he⟩ | ⟨hs, hpc, hd, he⟩ | ⟨hs, hpc, i, hi, -⟩
  · exact .inl ⟨hs, he⟩
  · exact .inr (.inl ⟨hs, _, _, .fetch (by omega), he⟩)
  · exact .inr (.inl ⟨hs, _, _, .unknown (by omega) ((wellFormedWord_eq_false _).mpr hd), he⟩)
  · have hx : s.Executes i := ⟨hs, by omega, hi⟩
    rcases exec_cases i s with ⟨c, a, he⟩ | ⟨u, he, hu⟩
    · exact .inr (.inl ⟨hs, c, a, exec_raise_haltsBy hx he, step_of_raises hx he⟩)
    · exact .inr (.inr ⟨i, u, hx, he, hu, step_eq_tick hx he hu.status⟩)

/-- `step_outcome` for a step that is known to answer `t`. -/
theorem step_next_cases {s t : State} (h : step s = .next t) :
    (s.status ≠ .running ∧ t = s)
      ∨ (s.status = .running ∧ ∃ c a, s.HaltsBy c a ∧ t = { s with status := .halted c a })
      ∨ ∃ i u, s.Executes i ∧ exec i s = .next u ∧ KeepsRow i s u ∧ t = u.tick := by
  rcases step_outcome s with ⟨hs, he⟩ | ⟨hs, c, a, hc, he⟩ | ⟨i, u, hx, he, hu, ht⟩
  · exact .inl ⟨hs, next_inj.mp (h.symm.trans he)⟩
  · exact .inr (.inl ⟨hs, c, a, hc, next_inj.mp (h.symm.trans he)⟩)
  · exact .inr (.inr ⟨i, u, hx, he, hu, next_inj.mp (h.symm.trans ht)⟩)

/-- A step that executes `i` and leaves the machine running completed `i` and ticked. -/
theorem step_completes {s t : State} {i : Instr} (hx : s.Executes i) (h : step s = .next t) (ht : t.status = .running) :
    ∃ u, exec i s = .next u ∧ KeepsRow i s u ∧ t = u.tick := by
  rcases step_next_cases h with ⟨hs, -⟩ | ⟨-, c, a, -, rfl⟩ | ⟨j, u, hj, he, hu, rfl⟩
  · exact absurd hx.1 hs
  · cases ht
  · obtain rfl := hx.unique hj
    exact ⟨u, he, hu, rfl⟩

/-! ### Fatal conditions -/

/-- Settles O12: of the three things a step can do, doing nothing needs a halted machine and completing leaves a running one; what is
left is the raising of a condition, which writes `STATUS` only. -/
theorem fatalStepChangesOnlyStatus : Obligations.FatalStepChangesOnlyStatus := by
  intro s t hs h ht
  rcases step_next_cases h with ⟨hs', -⟩ | ⟨-, c, a, -, rfl⟩ | ⟨i, u, -, -, hu, rfl⟩
  · exact absurd hs hs'
  · rfl
  · exact absurd (hu.status.trans hs) ht

/-- Settles O13: a state that meets a line of the table raises its condition; a step that ends halted raised a condition, that of the
line the state meets. -/
theorem haltTellsItsCause : Obligations.HaltTellsItsCause := by
  intro s c a hs
  constructor
  · exact fun h => ⟨_, h.step_eq_raise hs, rfl⟩
  · rintro ⟨t, h, ht⟩
    rcases step_next_cases h with ⟨hs', -⟩ | ⟨-, c', a', hc, rfl⟩ | ⟨i, u, -, -, hu, rfl⟩
    · exact absurd hs hs'
    · obtain ⟨rfl, rfl⟩ : c' = c ∧ a' = a := by simpa using ht
      exact hc
    · rw [State.tick_status, hu.status, hs] at ht
      cases ht

/-- Settles O14: each of the three things a step can do answers a next state. -/
theorem everyStepAnswersANextState : Obligations.EveryStepAnswersANextState := by
  intro s
  rcases step_outcome s with ⟨-, he⟩ | ⟨-, c, a, -, he⟩ | ⟨i, u, -, -, -, he⟩
  all_goals exact ⟨_, he⟩

/-- Settles O9: the fetch fails its range check, which names the lowest offending address. -/
theorem fetchPastMemoryHalts : Obligations.FetchPastMemoryHalts := by
  intro s hs hpc
  refine ⟨_, ?_, step_of_fetch_outOfRange hs hpc⟩
  have := s.pc.isLt
  rw [BitVec.toNat_ofNat]
  split <;> omega

/-- The fetched word is the big-endian word of the two bytes at `pc` (R54, R91). -/
theorem State.fetchWord_eq {s : State} {w : Word}
    (h : w.toNat = (Memory.read s.mem s.pc.toNat).toNat * 256 + (Memory.read s.mem (s.pc.toNat + 1)).toNat) :
    s.fetchWord = w :=
  BitVec.eq_of_toNat_eq ((wordOfBytes_toNat _ _).trans h.symm)

/-- Settles O10: a word that no row admits is not decoded. -/
theorem illegalWordHalts : Obligations.IllegalWordHalts := by
  intro s w hs hpc hw hrows
  obtain rfl := State.fetchWord_eq hw
  exact step_of_unknown hs hpc ((decodeWord_eq_none_iff_rows _).mpr fun r hr => beq_eq_false_iff_ne.mpr (hrows r hr))

/-- Settles O6: memory reads zero at `0x200`, above the font, so the first step fetches `0x0000`, which is not decoded. -/
theorem emptyMachineHalts : Obligations.EmptyMachineHalts := by
  have hfetch : State.reset.fetchWord = 0x0000 := rfl
  have hstep := step_of_unknown (s := State.reset) rfl (by decide) (by rw [hfetch]; rfl)
  exact hstep.trans (by rw [hfetch]; rfl)

/-- A machine whose step leaves a state alone stays in it for any number of steps. -/
theorem run_of_step_self {M : Host.Core} {s : M.State} (h : M.step s = .next s) (n : Nat) : M.run n s = .next s := by
  induction n with
  | zero => rfl
  | succ n ih => simp only [Host.Core.run, h, ih]

/-- Settles O11: the step of a halted machine leaves the state alone. -/
theorem haltedMachineStaysHalted : Obligations.HaltedMachineStaysHalted :=
  fun n s _ _ hs => run_of_step_self (M := core) (step_of_halted (s := s) (by simp [hs])) n

/-! ### The step as a function of its instruction -/

/-- The end of a step, with the tick of R98 written on integers. -/
theorem State.endStep_eq_ite (t : State) :
    t.endStep = if t.status = .running then
      { t with dt := BitVec.ofNat 8 (t.dt.toNat - 1), st := BitVec.ofNat 8 (t.st.toNat - 1) } else t := by
  have tick_eq (b : Byte) : tickTimer b = BitVec.ofNat 8 (b.toNat - 1) := by
    rw [← tickTimer_toNat, BitVec.ofNat_toNat, BitVec.setWidth_eq]
  by_cases h : t.status = .running
  · rw [State.endStep_of_running h, if_pos h, State.tick, tick_eq, tick_eq]
  · rw [State.endStep_of_halted h, if_neg h]

/-- Settles O7: the word is the one fetched, so the step runs its instruction and then the end of the step. -/
theorem stepRunsDecodedInstruction : Obligations.StepRunsDecodedInstruction := by
  intro s w i hs hpc hw hd
  obtain rfl := State.fetchWord_eq hw
  rw [step_of_executes ⟨hs, hpc, hd⟩]
  cases exec i s with
  | next t => exact congrArg Host.Outcome.next t.endStep_eq_ite
  | fault r => rfl
  | refused r => rfl

/-- A placed word is the word of the next fetch (log entry 6). -/
theorem State.placeWord_fetchWord (s : State) (w : Word) : (s.placeWord w).fetchWord = w := by
  unfold State.fetchWord State.placeWord
  simp [Memory.read_writeBytes, wordOfBytes_bytes]

theorem State.placeWord_pc_inRange (s : State) (w : Word) : (s.placeWord w).pc.toNat + 1 < 4096 := by
  unfold State.placeWord
  dsimp only
  split
  · assumption
  · decide

/-- A table word that names an instruction is decoded to it. -/
theorem decodeWord_of_decodeTableWord {w : Nat} {i : Instr} (h : decodeTableWord 16 w = some i) :
    decodeWord (BitVec.ofNat 16 (w % 2 ^ 16)) = some i := by
  simp only [decodeTableWord, decode, wordOfBytes_bytes] at h
  split at h
  next j rest hj =>
    split at hj <;> cases hj
    exact ‹_ = some j›.trans h
  next => cases h

/-- Settles O8: placing the word sets the machine running at a `pc` that allows a fetch, and the fetch reads the word back. -/
theorem placedWordIsExecuted : Obligations.PlacedWordIsExecuted := by
  intro s w i h
  refine ⟨rfl, s.placeWord_pc_inRange _, ?_⟩
  rw [State.withFetchWord, State.placeWord_fetchWord]
  exact decodeWord_of_decodeTableWord h

end Sys2Proof.Machine
end

section
/-! PROOFS. Who writes what in a step (spec/10_state.md, R33, R34), the timers (R98, R99) and the random input (R100). -/

namespace Sys2Proof.Machine

/-! ### Registers and keys after a write -/

@[simp] theorem Regs.getElem_set_self (v : Regs) (x : RegIx) (b : Byte) : (v.set x b)[x] = b := by simp

theorem Regs.getElem_set_ne (v : Regs) {x k : RegIx} (b : Byte) (h : k ≠ x) : (v.set x b)[k] = v[k] :=
  (Regs.set_or v x b k).resolve_right h

theorem State.setKey_key_self (s : State) (k : KeyIx) (down : Bool) : (s.setKey k down).key[k] = down := by simp

theorem State.setKey_key_ne (s : State) {k j : KeyIx} (down : Bool) (h : j ≠ k) : (s.setKey k down).key[j] = s.key[j] := by
  have : k.val ≠ j.val := fun e => h (Fin.ext e.symm)
  simp [this]

/-- A load writes memory only (R214, R215). -/
theorem State.loadProgram_eq_update_mem (s : State) (rom : RomSource) :
    (s.loadProgram rom).1 = { s with mem := (s.loadProgram rom).1.mem } := by
  cases rom with
  | failed => rfl
  | bytes rom =>
    by_cases h : 3584 < rom.length
    · rw [s.loadProgram_bytes_of_too_large h]
    · simp only [State.loadProgram, if_neg h]

/-! ### The table of writers -/

/-- Settles O18: a step that does nothing or raises writes no component but `STATUS`; one that completes keeps to the row of its
instruction, and then ticks. The host's moves are read off their definitions. -/
theorem componentWriters : Obligations.ComponentWriters := by
  refine ⟨fun s t h => ?step, fun s t rom h => ?load, fun s k down => ?key, fun s => rfl⟩
  case load =>
    obtain rfl := next_inj.mp h
    exact s.loadProgram_eq_update_mem rom
  case key => exact ⟨_, rfl, s.setKey_key_self k down, fun j hj => s.setKey_key_ne down hj, rfl⟩
  case step =>
    rcases step_next_cases h with ⟨-, rfl⟩ | ⟨hs, c, a, hc, rfl⟩ | ⟨i, u, hx, -, hu, rfl⟩
    · exact ⟨.inl rfl, fun _ => .inl rfl, .inl rfl, .inl ⟨rfl, rfl⟩, .inl rfl, .inl rfl, .inl rfl, rfl, .inl rfl, .inl rfl⟩
    · exact ⟨.inl rfl, fun _ => .inl rfl, .inl rfl, .inl ⟨rfl, rfl⟩, .inl rfl, .inl rfl, .inl rfl, rfl, .inl rfl,
        .inr ⟨hs, c, a, rfl, hc⟩⟩
    · have tick_or {b b' : Byte} {p : Prop} (hb : b = b' ∨ p) :
          (tickTimer b).toNat = b'.toNat ∨ (tickTimer b).toNat = b'.toNat - 1 ∨ p :=
        .inr (hb.imp_left fun e => by rw [e, tickTimer_toNat])
      exact ⟨hu.mem.imp_right fun hw => ⟨i, hx, hw⟩, fun k => (hu.v k).imp_right fun hw => ⟨i, hx, hw⟩,
        hu.i.imp_right fun hw => ⟨i, hx, hw⟩, hu.stack.imp_right fun hw => ⟨i, hx, hw⟩,
        tick_or (hu.dt.imp_right fun ⟨x, hi⟩ => ⟨x, hi ▸ hx⟩), tick_or (hu.st.imp_right fun ⟨x, hi⟩ => ⟨x, hi ▸ hx⟩),
        hu.pix.imp_right fun hw => ⟨i, hx, hw⟩, hu.key, hu.dcf.imp_right fun ⟨hd, hw⟩ => ⟨hd, i, hx, hw⟩, .inl hu.status⟩

/-! ### Nothing depends on the sound timer or the display-changed flag -/

/-- Two results are next states that differ in `ST` and `DCF` at most. -/
def SameButSoundAndFlag (r r' : Result) : Prop :=
  ∃ (t : State) (st : Byte) (dcf : Bool), r = .next t ∧ r' = .next { t with st := st, dcf := dcf }

theorem SameButSoundAndFlag.skipIf (s : State) (c : Bool) (st : Byte) (dcf : Bool) :
    SameButSoundAndFlag (.next (s.skipIf c)) (.next ({ s with st := st, dcf := dcf }.skipIf c)) := by
  cases c <;> exact ⟨_, _, _, rfl, rfl⟩

theorem SameButSoundAndFlag.endStep (t : State) (st : Byte) (dcf : Bool) :
    SameButSoundAndFlag (.next t.endStep) (.next { t with st := st, dcf := dcf }.endStep) := by
  by_cases h : t.status = .running
  · rw [State.endStep_of_running h, State.endStep_of_running (t := { t with st := st, dcf := dcf }) h]
    exact ⟨_, _, _, rfl, rfl⟩
  · rw [State.endStep_of_halted h, State.endStep_of_halted (t := { t with st := st, dcf := dcf }) h]
    exact ⟨_, _, _, rfl, rfl⟩

/-- No instruction reads `ST` or `DCF`: from states that differ in these alone each takes the same one of its outcomes, with the same
values in every other component (R33). -/
theorem exec_sameButSoundAndFlag (i : Instr) (s : State) (st : Byte) (dcf : Bool) :
    SameButSoundAndFlag (exec i s) (exec i { s with st := st, dcf := dcf }) := by
  have hsp := s.sp.isLt
  cases i
  case ret =>
    by_cases h : s.sp.val = 0
    · exact ⟨_, _, _, exec_ret_of_zero h, exec_ret_of_zero h⟩
    · exact ⟨_, _, _, exec_ret_of_pos h, exec_ret_of_pos h⟩
  case call nnn =>
    by_cases h : s.sp.val < 16
    · exact ⟨_, _, _, exec_call_of_lt nnn h, exec_call_of_lt (s := { s with st := st, dcf := dcf }) nnn h⟩
    · have h : s.sp.val = 16 := by omega
      exact ⟨_, _, _, exec_call_of_full nnn h, exec_call_of_full nnn h⟩
  case ldBcd x =>
    rcases Nat.lt_or_ge (s.i.toNat + 2) 4096 with h | h
    · exact ⟨_, _, _, exec_ldBcd_of_inRange x h, exec_ldBcd_of_inRange x h⟩
    · exact ⟨_, _, _, exec_ldBcd_of_outOfRange x h, exec_ldBcd_of_outOfRange x h⟩
  case storeRegs x =>
    rcases Nat.lt_or_ge (s.i.toNat + x.val) 4096 with h | h
    · exact ⟨_, _, _, exec_storeRegs_of_inRange h, exec_storeRegs_of_inRange h⟩
    · exact ⟨_, _, _, exec_storeRegs_of_outOfRange h, exec_storeRegs_of_outOfRange h⟩
  case loadRegs x =>
    rcases Nat.lt_or_ge (s.i.toNat + x.val) 4096 with h | h
    · exact ⟨_, _, _, exec_loadRegs_of_inRange h, exec_loadRegs_of_inRange h⟩
    · exact ⟨_, _, _, exec_loadRegs_of_outOfRange h, exec_loadRegs_of_outOfRange h⟩
  case drw x y n =>
    rcases exec_drw_cases x y n s with ⟨h, he⟩ | ⟨h0, h, he⟩
    · exact ⟨_, _, _, he, exec_drw_of_inRange x y h⟩
    · exact ⟨_, _, _, he, exec_drw_of_outOfRange x y h0 h⟩
  case skp x =>
    rcases Nat.lt_or_ge (s.v[x]).toNat 16 with h | h
    · rw [exec_skp_of_key (k := ⟨_, h⟩) rfl, exec_skp_of_key (s := { s with st := st, dcf := dcf }) (k := ⟨_, h⟩) rfl]
      exact .skipIf s _ st dcf
    · exact ⟨_, _, _, exec_skp_of_noKey h, exec_skp_of_noKey h⟩
  case sknp x =>
    rcases Nat.lt_or_ge (s.v[x]).toNat 16 with h | h
    · rw [exec_sknp_of_key (k := ⟨_, h⟩) rfl, exec_sknp_of_key (s := { s with st := st, dcf := dcf }) (k := ⟨_, h⟩) rfl]
      exact .skipIf s _ st dcf
    · exact ⟨_, _, _, exec_sknp_of_noKey h, exec_sknp_of_noKey h⟩
  case ldVxKey x =>
    cases h : s.highestKey with
    | some k => exact ⟨_, _, _, exec_ldVxKey_of_some x h, exec_ldVxKey_of_some x h⟩
    | none => exact ⟨_, _, _, exec_ldVxKey_of_none x h, exec_ldVxKey_of_none x h⟩
  case seImm | sneImm | seReg | sneReg => exact .skipIf s _ st dcf
  all_goals exact ⟨_, _, _, rfl, rfl⟩

/-- Nor does any other stage of the step (R33, R90). -/
theorem step_sameButSoundAndFlag (s : State) (st : Byte) (dcf : Bool) :
    SameButSoundAndFlag (step s) (step { s with st := st, dcf := dcf }) := by
  rcases step_cases s with ⟨hs, he⟩ | ⟨hs, hpc, he⟩ | ⟨hs, hpc, hd, he⟩ | ⟨hs, hpc, i, hi, -⟩
  · exact ⟨_, _, _, he, step_of_halted hs⟩
  · exact ⟨_, _, _, he, step_of_fetch_outOfRange hs (by dsimp only; omega)⟩
  · exact ⟨_, _, _, he, step_of_unknown hs (by dsimp only; omega) hd⟩
  · have hx : s.Executes i := ⟨hs, by omega, hi⟩
    have hx' : { s with st := st, dcf := dcf }.Executes i := hx
    obtain ⟨t, st', dcf', he, he'⟩ := exec_sameButSoundAndFlag i s st dcf
    rw [step_of_executes hx, step_of_executes hx', he, he']
    exact .endStep t st' dcf'

/-- Settles O19: the step is determined, so the two next states are those of the lemma for the step. -/
theorem soundAndDisplayFlagUnobservable : Obligations.SoundAndDisplayFlagUnobservable := by
  intro s t u st dcf ht hu
  obtain ⟨t', st', dcf', ht', hu'⟩ := step_sameButSoundAndFlag s st dcf
  obtain rfl := next_inj.mp (ht'.symm.trans ht)
  obtain rfl := next_inj.mp (hu'.symm.trans hu)
  rfl

/-! ### Timers and random input -/

/-- Settles O15: the instruction leaves `DT` and `ST` alone unless it is the one that writes it, and the tick of the same step takes one
from what the instruction left. -/
theorem timersFallOncePerStep : Obligations.TimersFallOncePerStep := by
  intro s t i hx h ht
  obtain ⟨u, he, hu, rfl⟩ := step_completes hx h ht
  rw [State.tick_dt, State.tick_st, tickTimer_toNat, tickTimer_toNat]
  constructor
  · split
    next x => rw [next_inj.mp (he.symm.trans (exec_ldDtVx x s))]
    next hi => rw [hu.dt.resolve_right fun ⟨x, hix⟩ => hi x hix]
  · split
    next x => rw [next_inj.mp (he.symm.trans (exec_ldStVx x s))]
    next hi => rw [hu.st.resolve_right fun ⟨x, hix⟩ => hi x hix]

/-- Settles O16: the first step leaves `v - 1` in `DT`, the second copies it and ticks once more. -/
theorem setThenReadDelayTimer : Obligations.SetThenReadDelayTimer := by
  intro s t u x hs _ ht hx hu
  obtain rfl := next_inj.mp (ht.symm.trans (step_eq_tick hs (exec_ldDtVx x s) rfl))
  obtain rfl := next_inj.mp (hu.symm.trans (step_eq_tick hx (exec_ldVxDt x _) rfl))
  simp only [State.tick_v, State.tick_dt, State.advance_v, State.advance_dt, State.setReg_v, State.setReg_dt,
    Regs.getElem_set_self, tickTimer_toNat, true_and]
  omega

/-- `CXNN` can do one thing only: draw one byte, mask it into `VX` and fall through (R142). -/
theorem exec_rnd (x : RegIx) (nn : Byte) (s : State) :
    exec (.rnd x nn) s
      = .next { s with v := s.v.set x (Config.randomByte s.draws &&& nn), pc := s.pc + 2, draws := s.draws + 1 } := rfl

/-- Settles O41: a step that executes `CXNN` completes it; any other keeps the count, by the row of its instruction. -/
theorem onlyRandomDraws : Obligations.OnlyRandomDraws := by
  intro s t h
  constructor
  · rintro ⟨x, nn, hx⟩
    rw [next_inj.mp (h.symm.trans (step_eq_tick hx (exec_rnd x nn s) rfl))]
    rfl
  · intro hno
    rcases step_next_cases h with ⟨-, rfl⟩ | ⟨-, c, a, -, rfl⟩ | ⟨i, u, hx, -, hu, rfl⟩
    · rfl
    · rfl
    · exact hu.draws.resolve_right fun ⟨x, nn, hi⟩ => hno ⟨x, nn, hi ▸ hx⟩

end Sys2Proof.Machine
end

section
/-! PROOFS. The program counter (spec/40_step_cycle.md, R96) and the invariant of memory, stack and `pc` (spec/10_state.md, R24, R25). -/

namespace Sys2Proof.Machine

/-! ### The program counter -/

/-- A raise leaves no running machine. -/
theorem raise_ne_running {c : Cause} {a : Word} {s t : State} (h : raise c a s = .next t) : t.status ≠ .running := by
  rw [raise_eq_next.mp h]
  exact Status.noConfusion

theorem zextByte_toNat (b : Byte) : (zextByte b).toNat = b.toNat := BitVec.toNat_setWidth_of_le (by decide)

/-- The target of `BNNN` is the sum as an integer: it is below 65536, so nothing wraps (R114). -/
theorem State.indexedTarget_toNat (s : State) (nnn : Addr12) : (s.indexedTarget nnn).toNat = nnn.toNat + (s.v[0]).toNat := by
  have := nnn.isLt
  have := (s.v[0]).isLt
  rw [State.indexedTarget, BitVec.toNat_add, zextAddr_toNat, zextByte_toNat]
  exact Nat.mod_eq_of_lt (by omega)

/-- `BNNN` can do one thing only: jump to its target (R114). -/
theorem exec_jpV0 (nnn : Addr12) (s : State) : exec (.jpV0 nnn) s = .next (s.jump (s.indexedTarget nnn)) := rfl

theorem exec_seImm (x : RegIx) (nn : Byte) (s : State) : exec (.seImm x nn) s = .next (s.skipIf (s.v[x] == nn)) := rfl
theorem exec_sneImm (x : RegIx) (nn : Byte) (s : State) : exec (.sneImm x nn) s = .next (s.skipIf (s.v[x] != nn)) := rfl
theorem exec_seReg (x y : RegIx) (s : State) : exec (.seReg x y) s = .next (s.skipIf (s.v[x] == s.v[y])) := rfl
theorem exec_sneReg (x y : RegIx) (s : State) : exec (.sneReg x y) s = .next (s.skipIf (s.v[x] != s.v[y])) := rfl

theorem State.highestKey_pressed {s : State} {k : KeyIx} (h : s.highestKey = some k) : s.key[k] = true :=
  List.find?_some (p := fun k : KeyIx => s.key[k]) h

/-- Settles O17: each instruction at its outcomes; those that raise are left out by the premise that the machine goes on running. -/
theorem programCounterPolicy : Obligations.ProgramCounterPolicy := by
  intro i s t hs h ht
  have noRaise {c : Cause} {a : Word} : exec i s ≠ raise c a s := fun he => raise_ne_running (he ▸ h) ht
  have only {u : State} (he : exec i s = .next u) : t = u := next_inj.mp (h.symm.trans he)
  cases i
  case jp nnn => rw [only (exec_jp nnn s)]; exact zextAddr_toNat nnn
  case jpV0 nnn => rw [only (exec_jpV0 nnn s)]; exact s.indexedTarget_toNat nnn
  case seImm x nn => rw [only (exec_seImm x nn s)]; simp
  case sneImm x nn => rw [only (exec_sneImm x nn s)]; simp
  case seReg x y => rw [only (exec_seReg x y s)]; simp
  case sneReg x y => rw [only (exec_sneReg x y s)]; simp
  case ret =>
    rcases exec_ret_cases s with ⟨-, he⟩ | ⟨h0, he⟩
    · exact absurd he noRaise
    · rw [only he]
      have := s.sp.isLt
      exact ⟨⟨s.sp.val - 1, by omega⟩, Nat.succ_pred h0, rfl⟩
  case call nnn =>
    rcases exec_call_cases nnn s with ⟨-, he⟩ | ⟨_, he⟩
    · exact absurd he noRaise
    · rw [only he]; exact zextAddr_toNat nnn
  case skp x =>
    rcases exec_skp_cases x s with ⟨hk, he⟩ | ⟨-, he⟩
    · rw [only he]; exact ⟨⟨_, hk⟩, rfl, s.skipIf_pc _⟩
    · exact absurd he noRaise
  case sknp x =>
    rcases exec_sknp_cases x s with ⟨hk, he⟩ | ⟨-, he⟩
    · rw [only he]; exact ⟨⟨_, hk⟩, rfl, by simp⟩
    · exact absurd he noRaise
  case ldVxKey x =>
    rcases exec_ldVxKey_cases x s with ⟨k, hk, he⟩ | ⟨hk, he⟩
    · rw [only he]; exact (if_pos ⟨k, State.highestKey_pressed hk⟩).symm
    · rw [only he]; exact (if_neg (by simp [State.highestKey_none.mp hk])).symm
  case drw x y n =>
    rcases exec_drw_cases x y n s with ⟨-, he⟩ | ⟨-, -, he⟩
    · rw [only he]; rfl
    · exact absurd he noRaise
  case ldBcd x =>
    rcases exec_ldBcd_cases x s with ⟨-, he⟩ | ⟨-, he⟩
    · rw [only he]; rfl
    · exact absurd he noRaise
  case storeRegs x =>
    rcases exec_storeRegs_cases x s with ⟨-, he⟩ | ⟨-, he⟩
    · rw [only he]; rfl
    · exact absurd he noRaise
  case loadRegs x =>
    rcases exec_loadRegs_cases x s with ⟨-, he⟩ | ⟨-, he⟩
    · rw [only he]; simp
    · exact absurd he noRaise
  all_goals rw [only rfl]; rfl

/-- Near an address that allows a fetch nothing wraps. -/
theorem word_add_toNat {w : Word} {n : Nat} (hw : w.toNat + 1 < 4096) (hn : n ≤ 4) :
    (w + BitVec.ofNat 16 n).toNat = w.toNat + n := by
  rw [BitVec.toNat_add, BitVec.toNat_ofNat]
  omega

theorem pc_two_or_four_toNat {pc : Word} (hpc : pc.toNat + 1 < 4096) (p : Prop) [Decidable p] :
    (if p then pc + 4 else pc + 2).toNat = pc.toNat + if p then 4 else 2 := by
  split
  · exact word_add_toNat (n := 4) hpc (by decide)
  · exact word_add_toNat (n := 2) hpc (by decide)

theorem pc_two_or_stay_toNat {pc : Word} (hpc : pc.toNat + 1 < 4096) (p : Prop) [Decidable p] :
    (if p then pc + 2 else pc).toNat = pc.toNat + if p then 2 else 0 := by
  split
  · exact word_add_toNat (n := 2) hpc (by decide)
  · rfl

/-- Settles O23: the `pc` of R96 (O17), where the fetch has bounded the old `pc` and the invariant the popped address. -/
theorem programCounterNeverWraps : Obligations.ProgramCounterNeverWraps := by
  intro s t i hinv hx h ht
  obtain ⟨u, he, hu, rfl⟩ := step_completes hx h ht
  obtain ⟨hs, hpc, -⟩ := hx
  have hu := programCounterPolicy i s u hs he ht
  have htwo : (s.pc + 2).toNat = s.pc.toNat + 2 := word_add_toNat (n := 2) hpc (by decide)
  rw [State.tick_pc]
  cases i
  case jp | call | jpV0 => exact hu
  case seImm | sneImm | seReg | sneReg => exact (congrArg BitVec.toNat hu).trans (pc_two_or_four_toNat hpc _)
  case skp | sknp =>
    obtain ⟨k, hk, hp⟩ := hu
    exact ⟨k, hk, (congrArg BitVec.toNat hp).trans (pc_two_or_four_toNat hpc _)⟩
  case ret =>
    obtain ⟨k, hk, hp⟩ := hu
    have hlive := hinv.stack_in_range k (by omega)
    exact ⟨k, hk, (congrArg BitVec.toNat hp).trans (word_add_toNat (n := 2) (by omega) (by decide))⟩
  case ldVxKey => exact (congrArg BitVec.toNat hu).trans (pc_two_or_stay_toNat hpc _)
  all_goals exact (congrArg BitVec.toNat hu).trans htwo

/-! ### The invariant -/

/-- A write of the stack leaves every entry but its own. -/
theorem Stack.getElem_set (stack : Vector Word 16) {n : Nat} (hn : n < 16) (w : Word) (k : Fin 16) :
    (stack.set n w hn)[k] = if k.val = n then w else stack[k] := by
  simp only [Fin.getElem_fin, Vector.getElem_set, eq_comm]

/-- No instruction leaves a live stack entry above `0xFFE`: a return frees an entry, and a call fetched below 4095 pushes its own
address (R111, R113). -/
theorem exec_stackInRange {i : Instr} {s t : State} (he : exec i s = .next t) (hpc : s.pc.toNat + 1 < 4096)
    (h : s.StackInRange) : t.StackInRange := by
  have same {u : State} (hst : u.stack = s.stack) (hsp : u.sp.val ≤ s.sp.val) : u.StackInRange := by
    intro k hk
    rw [hst]
    exact h k (hk.trans_le hsp)
  rcases exec_cases i s with ⟨c, a, hr⟩ | ⟨u, hu, hrow⟩
  · rw [raise_eq_next.mp (hr.symm.trans he)]
    exact same rfl le_rfl
  · obtain rfl := next_inj.mp (hu.symm.trans he)
    rcases hrow.stack with ⟨hst, hsp⟩ | rfl | ⟨nnn, rfl⟩
    · exact same hst (by rw [hsp])
    · rcases exec_ret_cases s with ⟨-, hr⟩ | ⟨_, hr⟩
      · rw [raise_eq_next.mp (hr.symm.trans he)]
        exact same rfl le_rfl
      · rw [next_inj.mp (he.symm.trans hr)]
        exact same rfl (Nat.sub_le _ _)
    · rcases exec_call_cases nnn s with ⟨-, hr⟩ | ⟨hlt, hr⟩
      · rw [raise_eq_next.mp (hr.symm.trans he)]
        exact same rfl le_rfl
      · rw [next_inj.mp (he.symm.trans hr)]
        intro k hk
        rw [State.jump_stack, Stack.getElem_set]
        split
        · omega
        · exact h k (by have : k.val < s.sp.val + 1 := hk; omega)

/-- What an instruction leaves in `pc` when it completes is at most `0x10FE`: the largest values are `0xFFF + 0xFF` for `BNNN` and less
for the others. -/
theorem step_pcInRange {s t : State} {i : Instr} (hinv : s.Inv) (hx : s.Executes i) (h : step s = .next t)
    (ht : t.status = .running) : t.PcInRange := by
  have hp := programCounterNeverWraps s t i hinv hx h ht
  obtain ⟨-, hpc, -⟩ := hx
  unfold State.PcInRange
  cases i
  case jp nnn | call nnn =>
    dsimp only at hp
    have := nnn.isLt
    omega
  case jpV0 nnn =>
    dsimp only at hp
    have := nnn.isLt
    have := (s.v[0]).isLt
    omega
  case ret =>
    obtain ⟨k, hk, hp⟩ := hp
    have hlive := hinv.stack_in_range k (by omega)
    omega
  case skp | sknp =>
    obtain ⟨k, -, hp⟩ := hp
    split at hp <;> omega
  case seImm | sneImm | seReg | sneReg | ldVxKey =>
    dsimp only at hp
    split at hp <;> omega
  all_goals dsimp only at hp; omega

/-- Settles O20: doing nothing and raising leave memory, stack and `pc` alone; a completed instruction stores below 4096, pushes its own
fetched address, and leaves a `pc` in range. -/
theorem stepKeepsInv : Obligations.StepKeepsInv := by
  intro s t hinv h
  rcases step_next_cases h with ⟨-, rfl⟩ | ⟨-, c, a, -, rfl⟩ | ⟨i, u, hx, he, hu, rfl⟩
  · exact hinv
  · exact ⟨hinv.mem_wf, hinv.stack_in_range, hinv.pc_in_range⟩
  · have hstack : u.StackInRange := exec_stackInRange he hx.2.1 hinv.stack_in_range
    refine ⟨?_, hstack, step_pcInRange hinv hx h (hu.status.trans hx.1)⟩
    rcases exec_mem_cases he with hm | ⟨a, bs, ha, hm⟩
    · rw [State.tick_mem, hm]
      exact hinv.mem_wf
    · rw [State.tick_mem, hm]
      exact Memory.wf_writeBytes bs s.mem a hinv.mem_wf ha

/-- The state after construction meets the invariant, whatever the count of draws. -/
theorem reset_inv (draws : Nat) : { State.reset with draws := draws }.Inv :=
  ⟨Memory.wf_reset, fun k hk => absurd hk (Nat.not_lt_zero _), by show (0x200 : Word).toNat ≤ 0x10FE; decide⟩

/-- Settles O21: construction lists no byte, saves no address and starts at `0x200`. -/
theorem resetMeetsInv : Obligations.ResetMeetsInv := reset_inv 0

/-- A load of at most 3584 bytes stores below 4096; any other changes nothing (R214, R215). -/
theorem wf_loadProgram {s : State} (rom : RomSource) (h : Memory.wf s.mem = true) :
    Memory.wf (s.loadProgram rom).1.mem = true := by
  cases rom with
  | failed => exact h
  | bytes rom =>
    by_cases hlong : 3584 < rom.length
    · rw [s.loadProgram_bytes_of_too_large hlong]
      exact h
    · simp only [State.loadProgram, if_neg hlong]
      exact Memory.wf_writeBytes rom s.mem 0x200 h (by omega)

/-- Settles O22, move by move. -/
theorem hostMovesKeepInv : Obligations.HostMovesKeepInv := by
  intro m s t hinv h
  cases m with
  | construct =>
    obtain rfl := next_inj.mp h
    exact reset_inv s.draws
  | load rom =>
    obtain rfl := next_inj.mp h
    rw [s.loadProgram_eq_update_mem rom]
    exact ⟨wf_loadProgram rom hinv.mem_wf, hinv.stack_in_range, hinv.pc_in_range⟩
  | key k down =>
    obtain rfl := next_inj.mp h
    exact ⟨hinv.mem_wf, hinv.stack_in_range, hinv.pc_in_range⟩
  | clearDcf =>
    obtain rfl := next_inj.mp h
    exact ⟨hinv.mem_wf, hinv.stack_in_range, hinv.pc_in_range⟩
  | step => exact stepKeepsInv s t hinv h

/-! ### The state after construction -/

/-- Settles O5: whatever the machine was, construction leaves the reset state but for the count of draws, and its memory lists no
byte, so every address reads as the font or as zero. -/
theorem resetState : Obligations.ResetState := by
  refine ⟨fun s => ⟨_, rfl⟩, fun t ht => ?_⟩
  obtain ⟨draws, rfl⟩ : ∃ draws, t = { State.reset with draws := draws } := by
    rcases ht with rfl | ⟨s, h⟩
    · exact ⟨0, rfl⟩
    · exact ⟨s.draws, (next_inj.mp h).symm⟩
  have zeros {α : Type} {n : Nat} (z : α) (k : Fin n) : (Vector.replicate n z)[k] = z := by simp
  exact ⟨fun a ha => dif_pos ha, fun a ha _ => dif_neg (by omega), zeros 0, rfl, rfl, rfl, zeros 0, rfl, rfl,
    fun row col => by simp [State.reset], zeros false, rfl, rfl⟩

end Sys2Proof.Machine
end

section
/-! PROOFS. Flow control, skips and keys (spec/41_flow_control.md, spec/42_skips.md, spec/46_keys_timers.md). -/

namespace Sys2Proof.Machine

/-! ### Jumps, calls and returns -/

/-- Settles O27: the target is the sum as an integer, and a jump writes `pc` only. -/
theorem jumpAddsV0 : Obligations.JumpAddsV0 :=
  fun nnn s => ⟨_, exec_jpV0 nnn s, s.indexedTarget_toNat nnn, rfl⟩

/-- Settles O28: with room on the stack `2NNN` has one outcome, whose new entry is the only one that differs. -/
theorem callPushesItsAddress : Obligations.CallPushesItsAddress :=
  fun nnn s h => ⟨_, exec_call_of_lt nnn h, zextAddr_toNat nnn, rfl, Stack.getElem_set s.stack h s.pc, rfl⟩

/-- `00EE` with `k + 1` addresses saved: the entry `k` plus 2, modulo 65536, and the entries stay (R111). -/
theorem exec_ret_of_succ {s : State} {k : Fin 16} (h : s.sp.val = k.val + 1) :
    exec .ret s = .next { s with pc := s.stack[k] + 2, sp := k.castSucc } := by
  rw [exec_ret_of_pos (by omega)]
  have hsub : s.sp.val - 1 = k.val := by omega
  simp only [State.jump, hsub]
  rfl

/-- Settles O29: with an address saved `00EE` has one outcome. -/
theorem returnPopsAndAddsTwo : Obligations.ReturnPopsAndAddsTwo :=
  fun _ _ h => ⟨_, exec_ret_of_succ h, BitVec.toNat_add _ _, rfl, rfl⟩

/-- Settles O31: the return pops the entry the call pushed, and neither writes the entries below. -/
theorem returnGoesAfterTheCall : Obligations.ReturnGoesAfterTheCall := by
  intro nnn s t u w h ht hsp hst hw
  obtain rfl := next_inj.mp (ht.symm.trans (exec_call_of_lt nnn h))
  have hdepth : u.sp.val = (⟨s.sp.val, h⟩ : Fin 16).val + 1 := congrArg Fin.val hsp
  obtain rfl := next_inj.mp (hw.symm.trans (exec_ret_of_succ hdepth))
  rw [hst]
  refine ⟨?_, rfl, fun k hk => ?_⟩
  · rw [State.jump_stack, Stack.getElem_set, if_pos rfl]
  · rw [State.jump_stack, Stack.getElem_set, if_neg hk.ne]

/-! ### Skips -/

/-- A skip writes `pc` only (R120). -/
theorem State.skipIf_eq_update_pc (s : State) (c : Bool) : s.skipIf c = { s with pc := if c then s.pc + 4 else s.pc + 2 } := by
  cases c <;> rfl

/-- A skip on equality of bytes, with the bytes as numbers. -/
theorem State.skipIf_beq (s : State) (a b : Byte) :
    s.skipIf (a == b) = { s with pc := if a.toNat = b.toNat then s.pc + 4 else s.pc + 2 } := by
  simp only [State.skipIf_eq_update_pc, beq_iff_eq, BitVec.toNat_eq]

/-- A skip on inequality of bytes, with the bytes as numbers. -/
theorem State.skipIf_bne (s : State) (a b : Byte) :
    s.skipIf (a != b) = { s with pc := if a.toNat = b.toNat then s.pc + 2 else s.pc + 4 } := by
  simp only [State.skipIf_eq_update_pc, bne_iff_ne, BitVec.toNat_eq, ne_eq, ite_not]

/-- Settles O32: each of the four skips has one outcome, and its word is the one its row of the opcode map gives. -/
theorem registerSkips : Obligations.RegisterSkips := by
  intro x y nn s
  refine ⟨?_, ?_, ?_, ?_, encode_and_mask (Laws.EncodeMatchesRow.seImm x nn), encode_and_mask (Laws.EncodeMatchesRow.sneImm x nn),
    encode_and_mask (Laws.EncodeMatchesRow.seReg x y), encode_and_mask (Laws.EncodeMatchesRow.sneReg x y)⟩
  · rw [exec_seImm, State.skipIf_beq]
  · rw [exec_sneImm, State.skipIf_bne]
  · rw [exec_seReg, State.skipIf_beq]
  · rw [exec_sneReg, State.skipIf_bne]

/-- Settles O33: with the index of a key each of the two skips has one outcome. -/
theorem keySkips : Obligations.KeySkips := by
  intro x k s h
  rw [exec_skp_of_key h, exec_sknp_of_key h, State.skipIf_eq_update_pc, State.skipIf_eq_update_pc]
  cases s.key[k] <;> exact ⟨rfl, rfl⟩

/-! ### Waiting for a key -/

theorem keysDescending_sorted : keysDescending.Pairwise (· > ·) := by decide

/-- The key found is the highest one pressed (R176): no higher key stands before it in the list. -/
theorem State.highestKey_eq_some {s : State} {k : KeyIx} (hk : s.key[k] = true) (hup : ∀ j : KeyIx, k < j → s.key[j] = false) :
    s.highestKey = some k := by
  cases h : s.highestKey with
  | none => rw [State.highestKey_none.mp h k] at hk; cases hk
  | some j =>
    have hj := State.highestKey_pressed h
    obtain ⟨-, before, after, hlist, hbefore⟩ := List.find?_eq_some_iff_append.mp h
    have hle : ¬ k < j := fun hlt => by rw [hup j hlt] at hj; cases hj
    have hmem : k ∈ before ++ j :: after := hlist ▸ mem_keysDescending k
    have hsorted : (before ++ j :: after).Pairwise (· > ·) := hlist ▸ keysDescending_sorted
    rcases List.mem_append.mp hmem with hb | ha
    · simpa [hk] using hbefore k hb
    · rcases List.mem_cons.mp ha with rfl | ha
      · rfl
      · obtain ⟨-, htail, -⟩ := List.pairwise_append.mp hsorted
        exact absurd (List.rel_of_pairwise_cons htail ha) hle

/-- Settles O55: the index found fits in a byte, and only `VX` and `pc` are written. -/
theorem keyWaitTakesHighestKey : Obligations.KeyWaitTakesHighestKey := by
  intro x k s hk hup
  refine ⟨_, exec_ldVxKey_of_some x (State.highestKey_eq_some hk hup), ?_, fun j hj => Regs.getElem_set_ne s.v _ hj, rfl⟩
  have := k.isLt
  rw [State.advance_v, State.setReg_v, Regs.getElem_set_self, BitVec.toNat_ofNat]
  omega

/-- Settles O56: with no key down the instruction changes nothing, so the step is the tick alone, and the next fetch is the same. -/
theorem keyWaitRepeats : Obligations.KeyWaitRepeats := by
  intro x s hx hup
  have he := exec_ldVxKey_of_none x (State.highestKey_none.mpr hup)
  exact ⟨_, step_eq_tick hx he rfl, tickTimer_toNat s.dt, tickTimer_toNat s.st, rfl, hx⟩

end Sys2Proof.Machine
end

section
/-! PROOFS. Arithmetic with a flag, shifts and the random byte (spec/43_alu.md, R137 to R143). -/

namespace Sys2Proof.Machine

/-! ### The bytes the instructions compute, as numbers -/

theorem flagByte_decide (p : Prop) [Decidable p] : flagByte (decide p) = if p then 1 else 0 := by
  simp only [flagByte, decide_eq_true_eq]

theorem byte_add_toNat (a b : Byte) : (a + b).toNat = (a.toNat + b.toNat) % 256 := BitVec.toNat_add a b

theorem byte_sub_toNat (a b : Byte) : (a - b).toNat = (a.toNat + 256 - b.toNat) % 256 := by
  have := b.isLt
  rw [BitVec.toNat_sub]
  omega

theorem byte_shr_toNat (a : Byte) : (a >>> 1).toNat = a.toNat / 2 := by
  rw [BitVec.toNat_ushiftRight, Nat.shiftRight_eq_div_pow, pow_one]

theorem byte_shl_toNat (a : Byte) : (a <<< 1).toNat = 2 * a.toNat % 256 := by
  rw [BitVec.toNat_shiftLeft, Nat.shiftLeft_eq, pow_one, Nat.mul_comm]

theorem lowBitOf_toNat (a : Byte) : (lowBitOf a).toNat = a.toNat % 2 := by
  rw [lowBitOf, BitVec.toNat_and]
  exact Nat.and_one_is_mod _

theorem highBitOf_toNat (a : Byte) : (highBitOf a).toNat = a.toNat / 128 := by
  have := a.isLt
  rw [highBitOf, BitVec.toNat_and, BitVec.toNat_ushiftRight, Nat.shiftRight_eq_div_pow]
  refine (Nat.and_one_is_mod _).trans ?_
  omega

/-! ### The two orders of result and flag -/

/-- An instruction that writes its result and then the flag: for `X` other than F both remain, for `X = F` the flag (R97). -/
theorem resultThenFlag_spec {i : Instr} {x : RegIx} {result flag : Byte} {s : State}
    (he : exec i s = resultThenFlag x result flag s) :
    ∃ t, exec i s = .next t ∧ (x ≠ 15 → t.v[x] = result) ∧ t.v[15] = flag
      ∧ (∀ k : RegIx, k ≠ x → k ≠ 15 → t.v[k] = s.v[k]) ∧ t = { s with v := t.v, pc := s.pc + 2 } := by
  refine ⟨_, he, fun hx => ?_, Regs.getElem_set_self _ 15 flag, fun k hkx hk => ?_, rfl⟩
  · exact (Regs.getElem_set_ne (s.v.set x result) flag hx).trans (Regs.getElem_set_self s.v x result)
  · exact (Regs.getElem_set_ne (s.v.set x result) flag hk).trans (Regs.getElem_set_ne s.v result hkx)

/-- An instruction that writes the flag and then updates `VX` in place: for `X` other than F both remain, for `X = F` the image of the
flag (R97). -/
theorem flagThenUpdate_spec {i : Instr} {x : RegIx} {flag : Byte} {f : Byte → Byte} {s : State}
    (he : exec i s = flagThenUpdate x flag f s) :
    ∃ t, exec i s = .next t ∧ (x ≠ 15 → t.v[x] = f s.v[x] ∧ t.v[15] = flag) ∧ (x = 15 → t.v[15] = f flag)
      ∧ (∀ k : RegIx, k ≠ x → k ≠ 15 → t.v[k] = s.v[k]) ∧ t = { s with v := t.v, pc := s.pc + 2 } := by
  refine ⟨_, he, fun hx => ⟨?_, ?_⟩, ?_, fun k hkx hk => ?_, rfl⟩
  · exact (Regs.getElem_set_self (s.v.set 15 flag) x _).trans (congrArg f (Regs.getElem_set_ne s.v flag hx))
  · exact (Regs.getElem_set_ne (s.v.set 15 flag) _ hx.symm).trans (Regs.getElem_set_self s.v 15 flag)
  · rintro rfl
    exact (Regs.getElem_set_self (s.v.set 15 flag) 15 _).trans (congrArg f (Regs.getElem_set_self s.v 15 flag))
  · exact (Regs.getElem_set_ne (s.v.set 15 flag) _ hkx).trans (Regs.getElem_set_ne s.v flag hk)

theorem exec_addReg (x y : RegIx) (s : State) :
    exec (.addReg x y) s = resultThenFlag x (s.v[x] + s.v[y]) (carryOf s.v[x] s.v[y]) s := rfl

theorem exec_subReg (x y : RegIx) (s : State) :
    exec (.subReg x y) s = resultThenFlag x (s.v[x] - s.v[y]) (noBorrowOf s.v[x] s.v[y]) s := rfl

theorem exec_subnReg (x y : RegIx) (s : State) :
    exec (.subnReg x y) s = resultThenFlag x (s.v[y] - s.v[x]) (noBorrowOf s.v[y] s.v[x]) s := rfl

theorem exec_shr (x y : RegIx) (s : State) :
    exec (.shr x y) s = flagThenUpdate x (lowBitOf s.v[x]) (fun a => a >>> 1) s := rfl

theorem exec_shl (x y : RegIx) (s : State) :
    exec (.shl x y) s = flagThenUpdate x (highBitOf s.v[x]) (fun a => a <<< 1) s := rfl

/-! ### The statements -/

/-- Settles O36: `8XY4` writes the sum and then the carry. -/
theorem addSetsCarry : Obligations.AddSetsCarry := by
  intro x y s
  obtain ⟨t, he, hresult, hflag, hframe⟩ := resultThenFlag_spec (exec_addReg x y s)
  exact ⟨t, he, fun hx => by rw [hresult hx, byte_add_toNat], hflag.trans (flagByte_decide _), hframe⟩

/-- Settles O37: `8XY5` and `8XY7` write their difference and then the flag that there was no borrow. -/
theorem subtractSetsNoBorrow : Obligations.SubtractSetsNoBorrow := by
  intro x y s
  constructor
  · obtain ⟨t, he, hresult, hflag, hframe⟩ := resultThenFlag_spec (exec_subReg x y s)
    exact ⟨t, he, fun hx => by rw [hresult hx, byte_sub_toNat], hflag.trans (flagByte_decide _), hframe⟩
  · obtain ⟨t, he, hresult, hflag, hframe⟩ := resultThenFlag_spec (exec_subnReg x y s)
    exact ⟨t, he, fun hx => by rw [hresult hx, byte_sub_toNat], hflag.trans (flagByte_decide _), hframe⟩

/-- Settles O38: both shifts write the bit shifted out and then shift what `VX` reads, which for `X = F` is that bit. -/
theorem shiftsInPlace : Obligations.ShiftsInPlace := by
  intro x y s
  constructor
  · obtain ⟨t, he, hother, hself, hframe⟩ := flagThenUpdate_spec (exec_shr x y s)
    refine ⟨t, he, fun hx => ?_, fun hx => ?_, hframe⟩
    · obtain ⟨hresult, hflag⟩ := hother hx
      rw [hresult, hflag, byte_shr_toNat, lowBitOf_toNat]
      exact ⟨rfl, rfl⟩
    · refine BitVec.eq_of_toNat_eq ?_
      rw [hself hx, byte_shr_toNat, lowBitOf_toNat]
      exact Nat.div_eq_of_lt (Nat.mod_lt _ (by decide))
  · obtain ⟨t, he, hother, hself, hframe⟩ := flagThenUpdate_spec (exec_shl x y s)
    refine ⟨t, he, fun hx => ?_, fun hx => ?_, hframe⟩
    · obtain ⟨hresult, hflag⟩ := hother hx
      rw [hresult, hflag, byte_shl_toNat, highBitOf_toNat]
      exact ⟨rfl, rfl⟩
    · subst hx
      have := (s.v[15]).isLt
      rw [hself rfl, byte_shl_toNat, highBitOf_toNat]
      show 2 * ((s.v[15]).toNat / 128) % 256 = _
      omega

/-- The two differences of the same bytes agree on their flag exactly when the bytes are equal (R143). -/
theorem noBorrow_both_iff (a b : Byte) :
    (if b.toNat ≤ a.toNat then (1 : Byte) else 0) = (if a.toNat ≤ b.toNat then 1 else 0) ↔ a = b := by
  rcases Nat.lt_trichotomy a.toNat b.toNat with h | h | h
  · rw [if_neg h.not_ge, if_pos h.le]
    exact iff_of_false (by decide) fun e => h.ne (congrArg BitVec.toNat e)
  · rw [if_pos h.ge, if_pos h.le]
    exact iff_of_true rfl (BitVec.eq_of_toNat_eq h)
  · rw [if_pos h.le, if_neg h.not_ge]
    exact iff_of_false (by decide) fun e => h.ne' (congrArg BitVec.toNat e)

/-- Settles O39: the table is O36 to O38 at an `X` other than F, and the identities are arithmetic on its entries. -/
theorem flagResultSummary : Obligations.FlagResultSummary := by
  intro x y s hx
  obtain ⟨add, hadd, haddr, haddf, -⟩ := addSetsCarry x y s
  obtain ⟨⟨sub, hsub, hsubr, hsubf, -⟩, subn, hsubn, hsubnr, hsubnf, -⟩ := subtractSetsNoBorrow x y s
  obtain ⟨⟨shr, hshr, hshrr, -⟩, shl, hshl, hshlr, -⟩ := shiftsInPlace x y s
  obtain ⟨hshrr, hshrf⟩ := hshrr hx
  obtain ⟨hshlr, hshlf⟩ := hshlr hx
  have hlx := (s.v[x]).isLt
  have hly := (s.v[y]).isLt
  refine ⟨add, sub, subn, shr, shl, hadd, hsub, hsubn, hshr, hshl, haddr hx, haddf, hsubr hx, hsubf, hsubnr hx, hsubnf,
    hshrr, hshrf, hshlr, hshlf, ?agree, ?both, ?sum, ?halves, ?double⟩
  case agree =>
    rw [hsubf, hsubnf]
    exact noBorrow_both_iff s.v[x] s.v[y]
  case both =>
    intro h
    rw [hsubf, hsubnf, h]
    simp
  case sum =>
    rw [haddr hx, haddf]
    split
    · show _ + 256 * 1 = _; omega
    · show _ + 256 * 0 = _; omega
  case halves => rw [hshrr, hshrf]; omega
  case double => rw [hshlr, hshlf]; omega

/-- Settles O40: the byte is read bit by bit. -/
theorem randomByteIsMasked : Obligations.RandomByteIsMasked := by
  intro x nn s
  refine ⟨_, exec_rnd x nn s, fun b _ => ?_, fun k hk => Regs.getElem_set_ne s.v _ hk, rfl⟩
  rw [Regs.getElem_set_self, BitVec.getLsbD_and]

end Sys2Proof.Machine
end

section
/-! PROOFS. The index register, memory and the Loader (spec/20_memory.md, spec/44_index_memory.md, spec/70_reset_and_hazards.md). -/

namespace Sys2Proof.Machine

/-! ### Memory as data -/

/-- Below its first entry a canonical memory reads as unlisted. -/
theorem Memory.read_of_wfFrom {m : Memory} {lo a : Nat} (h : Memory.wfFrom lo m = true) (ha : a < lo) :
    Memory.read m a = Memory.resetByte a := by
  induction m generalizing lo with
  | nil => rfl
  | cons c rest ih =>
    obtain ⟨k, w⟩ := c
    obtain ⟨hlo, -, -, hrest⟩ := (Memory.wfFrom_cons lo k w rest).mp h
    rw [Memory.read, if_neg (by omega)]
    exact ih hrest (by omega)

theorem Memory.read_cons_self (k : Nat) (w : Byte) (rest : Memory) : Memory.read ((k, w) :: rest) k = w := if_pos rfl

theorem Memory.read_cons_ne {k a : Nat} (w : Byte) (rest : Memory) (h : a ≠ k) :
    Memory.read ((k, w) :: rest) a = Memory.read rest a := if_neg h

/-- A listed byte is seen: a memory whose entries all lie above `k` does not read like one that lists `k`. -/
theorem Memory.read_ne_of_wfFrom {m rest : Memory} {lo k : Nat} {w : Byte} (h : Memory.wfFrom lo ((k, w) :: rest) = true)
    (hm : Memory.wfFrom (k + 1) m = true) : Memory.read ((k, w) :: rest) k ≠ Memory.read m k := by
  obtain ⟨-, -, hw, -⟩ := (Memory.wfFrom_cons lo k w rest).mp h
  rwa [Memory.read_cons_self, Memory.read_of_wfFrom hm (Nat.lt_succ_self k)]

/-- Canonical memories that read alike are equal: entry by entry, since the lower of two different first entries would be seen. -/
theorem Memory.ext_of_wfFrom {m n : Memory} {lo : Nat} (hm : Memory.wfFrom lo m = true) (hn : Memory.wfFrom lo n = true)
    (h : ∀ a, lo ≤ a → a < 4096 → Memory.read m a = Memory.read n a) : m = n := by
  induction m generalizing n lo with
  | nil =>
    cases n with
    | nil => rfl
    | cons c rest =>
      obtain ⟨k, w⟩ := c
      obtain ⟨hlo, hk, -, -⟩ := (Memory.wfFrom_cons lo k w rest).mp hn
      exact absurd (h k hlo hk).symm (Memory.read_ne_of_wfFrom hn rfl)
  | cons c m ih =>
    obtain ⟨k, w⟩ := c
    obtain ⟨hlo, hk, hw, hm'⟩ := (Memory.wfFrom_cons lo k w m).mp hm
    cases n with
    | nil => exact absurd (h k hlo hk) (Memory.read_ne_of_wfFrom hm rfl)
    | cons d n =>
      obtain ⟨l, x⟩ := d
      obtain ⟨hlo', hl, hx, hn'⟩ := (Memory.wfFrom_cons lo l x n).mp hn
      rcases Nat.lt_trichotomy k l with hlt | rfl | hlt
      · exact absurd (h k hlo hk) (Memory.read_ne_of_wfFrom hm
          ((Memory.wfFrom_cons _ _ _ _).mpr ⟨hlt, hl, hx, hn'⟩))
      · have hwx : w = x := by simpa only [Memory.read_cons_self] using h k hlo hk
        have hmn : m = n := ih hm' hn' fun a hka ha => by
          simpa only [Memory.read_cons_ne _ _ (Nat.ne_of_gt hka)] using h a (by omega) ha
        rw [hwx, hmn]
      · exact absurd (h l hlo' hl).symm (Memory.read_ne_of_wfFrom hn
          ((Memory.wfFrom_cons _ _ _ _).mpr ⟨hlt, hk, hw, hm'⟩))

/-- Settles O24, by induction on the two lists. -/
theorem equalReadsMakeEqualMemories : Obligations.EqualReadsMakeEqualMemories :=
  fun _ _ hm hn h => Memory.ext_of_wfFrom hm hn fun a _ ha => h a ha

/-! ### Bytes stored at rising addresses -/

theorem Memory.read_writeBytes_inside {bs : List Byte} (m : Memory) (a : Nat) {k : Nat} (hk : k < bs.length) :
    Memory.read (Memory.writeBytes m a bs) (a + k) = bs[k] := by
  rw [Memory.read_writeBytes, dif_pos ⟨by omega, by omega⟩]
  simp

theorem Memory.read_writeBytes_outside {bs : List Byte} (m : Memory) {a b : Nat} (h : b < a ∨ a + bs.length ≤ b) :
    Memory.read (Memory.writeBytes m a bs) b = Memory.read m b := by
  rw [Memory.read_writeBytes, dif_neg (by omega)]

/-- Settles O57: a ROM that fits is copied to `0x200` up, and a load writes memory only. -/
theorem loaderCopiesRom : Obligations.LoaderCopiesRom := by
  intro s rom h
  have hload : s.loadProgram (.bytes rom) = ({ s with mem := Memory.writeBytes s.mem 0x200 rom }, none) := if_neg h.not_gt
  rw [hload]
  exact ⟨rfl, fun k hk => Memory.read_writeBytes_inside s.mem 0x200 hk,
    fun a ha => Memory.read_writeBytes_outside s.mem ha, rfl⟩

/-! ### The index register -/

/-- `FX29` can do one thing only: point `I` at a glyph and fall through (R152). -/
theorem exec_ldGlyph (x : RegIx) (s : State) : exec (.ldGlyph x) s = .next (s.setI (glyphAddress s.v[x])).advance := rfl

/-- Five times a byte fits in 16 bits (R152). -/
theorem glyphAddress_toNat (b : Byte) : (glyphAddress b).toNat = 5 * b.toNat := by
  have := b.isLt
  rw [glyphAddress, BitVec.toNat_mul, zextByte_toNat]
  exact Nat.mod_eq_of_lt (by show 5 * b.toNat < 65536; omega)

/-- Settles O43: the address fits in `I`, and the instruction writes `I` and `pc` only. -/
theorem pointAtGlyph : Obligations.PointAtGlyph :=
  fun x s => ⟨_, exec_ldGlyph x s, glyphAddress_toNat s.v[x], rfl⟩

/-- `FX1E` can do one thing only: write the flag, then add to `I` what `VX` reads after that (R151, R97). -/
theorem exec_addI (x : RegIx) (s : State) :
    exec (.addI x) s = .next { s with
      v := s.v.set 15 (indexFlagOf s.i s.v[x]), i := s.i + zextByte (s.v.set 15 (indexFlagOf s.i s.v[x]))[x], pc := s.pc + 2 } := rfl

/-- A register read after a write of the flag. -/
theorem Regs.getElem_set_flag (v : Regs) (x : RegIx) (b : Byte) : (v.set 15 b)[x] = if x = 15 then b else v[x] := by
  split
  · next hx => subst hx; exact Regs.getElem_set_self v 15 b
  · next hx => exact Regs.getElem_set_ne v b hx

theorem indexFlagOf_eq (w : Word) (b : Byte) : indexFlagOf w b = if w.toNat + b.toNat > 0xFFF then 1 else 0 := flagByte_decide _

theorem indexFlagOf_toNat (w : Word) (b : Byte) : (indexFlagOf w b).toNat = if w.toNat + b.toNat > 0xFFF then 1 else 0 := by
  rw [indexFlagOf, flagByte_toNat]
  simp only [decide_eq_true_eq, gt_iff_lt]

/-- Settles O44: `VX` reads as before the flag was written unless `X = F`, when it reads as the flag. -/
theorem addToIndexSetsRangeFlag : Obligations.AddToIndexSetsRangeFlag := by
  intro x s
  refine ⟨_, exec_addI x s, ?flag, fun hx => ?other, fun hx => ?self, fun k hk => Regs.getElem_set_ne s.v _ hk, rfl⟩
  case flag => exact (Regs.getElem_set_self s.v 15 _).trans (indexFlagOf_eq _ _)
  case other =>
    dsimp only
    rw [BitVec.toNat_add, zextByte_toNat, Regs.getElem_set_flag, if_neg hx]
  case self =>
    subst hx
    dsimp only
    rw [BitVec.toNat_add, zextByte_toNat, Regs.getElem_set_flag, if_pos rfl, indexFlagOf_toNat]
    rfl

/-- `I + X + 1` does not wrap when the block lies below 4096 (D22). -/
theorem index_advance_toNat {w : Word} {x : RegIx} (h : w.toNat + x.val < 4096) :
    (w + BitVec.ofNat 16 (x.val + 1)).toNat = w.toNat + x.val + 1 := by
  rw [BitVec.toNat_add, BitVec.toNat_ofNat]
  omega

/-! ### The digits -/

/-- Settles O45: the three digits lie at the three addresses, and a digit fits in a byte. -/
theorem bcdStoresDigits : Obligations.BcdStoresDigits := by
  intro x s h
  have digit (k : Nat) (hk : k < 3) := Memory.read_writeBytes_inside (bs := bcdDigits s.v[x]) s.mem s.i.toNat (k := k) hk
  refine ⟨_, exec_ldBcd_of_inRange x h, ?_, ?_, ?_, fun a ha => Memory.read_writeBytes_outside s.mem ha, rfl⟩
  · exact (congrArg BitVec.toNat (digit 0 (by decide))).trans (BitVec.toNat_udiv ..)
  · exact (congrArg BitVec.toNat (digit 1 (by decide))).trans (BitVec.toNat_umod ..)
  · exact (congrArg BitVec.toNat (digit 2 (by decide))).trans (BitVec.toNat_umod ..)

/-! ### The register block -/

theorem State.block_length (s : State) (x : RegIx) : (s.block x).length = x.val + 1 := by
  simp [State.block]

theorem State.block_getElem (s : State) {x k : RegIx} (hk : k ≤ x) :
    (s.block x)[k.val]'(by rw [s.block_length]; exact Nat.lt_succ_of_le hk) = s.v[k] := by
  simp [State.block]

/-- After `FX55` the register `Vk` of the block reads at `I + k` (R154). -/
theorem read_storeRegs (s : State) {x k : RegIx} (hk : k ≤ x) :
    Memory.read (Memory.writeBytes s.mem s.i.toNat (s.block x)) (s.i.toNat + k.val) = s.v[k] := by
  rw [Memory.read_writeBytes_inside s.mem s.i.toNat (by rw [s.block_length]; exact Nat.lt_succ_of_le hk), s.block_getElem hk]

/-- Settles O46: the block lies at `I` to `I + X`, and `I` moves past it. -/
theorem storeRegistersAdvancesIndex : Obligations.StoreRegistersAdvancesIndex := by
  intro x s h
  refine ⟨_, exec_storeRegs_of_inRange h, fun k hk => read_storeRegs s hk, fun a ha => ?_, index_advance_toNat h, rfl⟩
  refine Memory.read_writeBytes_outside s.mem ?_
  rw [s.block_length]
  omega

theorem State.loadBlock_setI_advance (s : State) (a : Nat) (x : RegIx) (w : Word) :
    ((s.loadBlock a x).setI w).advance = { s with v := (s.loadBlock a x).v, i := w, pc := s.pc + 2 } := by
  simp only [State.advance, State.jump, State.setI, State.loadBlock]

/-- Settles O47: the registers up to `VX` are the bytes from `I`, and `I` moves past them. -/
theorem loadRegistersAdvancesIndex : Obligations.LoadRegistersAdvancesIndex := by
  intro x s h
  have he := exec_loadRegs_of_inRange h
  rw [State.loadBlock_setI_advance] at he
  refine ⟨_, he, fun k => ?_, index_advance_toNat h, rfl⟩
  simp only [State.loadBlock_v, Fin.getElem_fin, Vector.getElem_ofFn]

/-- Settles O49: the second instruction loads from the addresses the first stored to (O46, O47). -/
theorem dumpLoadRoundTrip : Obligations.DumpLoadRoundTrip := by
  intro x s t u w h ht hi hmem hw
  obtain ⟨t', ht', hstored, -, hti, -⟩ := storeRegistersAdvancesIndex x s h
  obtain ⟨w', hw', hloaded, hwi, -⟩ := loadRegistersAdvancesIndex x u (hi ▸ h)
  obtain rfl := next_inj.mp (ht'.symm.trans ht)
  obtain rfl := next_inj.mp (hw'.symm.trans hw)
  refine ⟨fun k hk => ?_, hti, hi ▸ hwi⟩
  rw [hloaded k, if_pos hk, hi, hmem k hk, hstored k hk]

/-- Settles O25: the two bytes the fetch reads are bytes of the stored block (O46). -/
theorem storedCodeIsFetched : Obligations.StoredCodeIsFetched := by
  intro s t x k hk pc h hkx ht hpc
  obtain ⟨t', ht', hstored, -⟩ := storeRegistersAdvancesIndex x s h
  obtain rfl := next_inj.mp (ht'.symm.trans ht)
  have hhigh := hstored k (Nat.le_of_succ_le hkx)
  have hlow := hstored ⟨k.val + 1, hk⟩ hkx
  rw [State.fetchWord, wordOfBytes_toNat, hpc, hhigh, Nat.add_assoc, hlow]
  rfl

end Sys2Proof.Machine
end

section
/-! PROOFS. Display (spec/45_display.md, R160 to R164) and its output (spec/10_state.md, R28, R39); the words the spec writes out. -/

namespace Sys2Proof.Machine

/-! ### Clearing -/

/-- `00E0` can do one thing only: blank the surface, set `DCF` and fall through (R161). -/
theorem exec_cls (s : State) : exec .cls s = .next { s with pix := Surface.blank, dcf := true, pc := s.pc + 2 } := rfl

/-- The components of a clear that a draw reads or changes. -/
theorem cls_next {s c : State} (h : exec .cls s = .next c) :
    c.pix = Surface.blank ∧ c.mem = s.mem ∧ c.i = s.i ∧ c.v = s.v := by
  obtain rfl := next_inj.mp ((exec_cls s).symm.trans h)
  exact ⟨rfl, rfl, rfl, rfl⟩

theorem Surface.blank_pixel (row : Fin 32) (col : Fin 64) : (Surface.blank[row])[col] = false := by simp [Surface.blank]

/-- Settles O50: `00E0` has one outcome, whose surface is blank. -/
theorem clearScreen : Obligations.ClearScreen := fun s => ⟨rfl, _, exec_cls s, Surface.blank_pixel, rfl⟩

/-! ### What `DXYN` draws -/

/-- The sprite bytes are the bytes from `I` (R160). -/
theorem State.exists_spriteByte {s : State} {n : Nibble} {p : Nat → Byte → Prop} :
    (∃ (k : Nat) (hk : k < (s.spriteBytes n).length), p k (s.spriteBytes n)[k])
      ↔ ∃ r < n.toNat, p r (Memory.read s.mem (s.i.toNat + r)) := by
  have hlen : (s.spriteBytes n).length = n.toNat := Memory.length_readBytes _ _ _
  have hget (k : Nat) (hk : k < (s.spriteBytes n).length) : (s.spriteBytes n)[k] = Memory.read s.mem (s.i.toNat + k) :=
    Memory.getElem_readBytes _ _ _ _ hk
  constructor
  · rintro ⟨k, hk, hp⟩
    exact ⟨k, hlen ▸ hk, hget k hk ▸ hp⟩
  · rintro ⟨r, hr, hp⟩
    exact ⟨r, hlen ▸ hr, (hget r (hlen ▸ hr)).symm ▸ hp⟩

/-- A pixel after the draw: flipped exactly when a sprite bit of 1 lies over it (R162, R163). -/
theorem State.drawn_pixel (s : State) (x y : RegIx) (n : Nibble) (row : Fin 32) (col : Fin 64) :
    ((s.drawn x y n).1[row])[col] = true ↔ Xor ((s.pix[row])[col] = true) (s.SpriteCovers x y n col row) := by
  refine ((drawSprite_spec _ _ _ _).1 row col).trans ?_
  rw [State.exists_spriteByte (p := fun k b => ∃ j < 8, col.val = (s.v[x]).toNat + j ∧ row.val = (s.v[y]).toNat + k
    ∧ b.getLsbD (7 - j) = true)]
  rfl

/-- The draw collides exactly when a sprite bit of 1 lies over a pixel that was set (R162, D13). -/
theorem State.drawn_collision (s : State) (x y : RegIx) (n : Nibble) :
    (s.drawn x y n).2 = true
      ↔ ∃ (row : Fin 32) (col : Fin 64), (s.pix[row])[col] = true ∧ s.SpriteCovers x y n col row := by
  refine ((drawSprite_spec _ _ _ _).2).trans ?_
  rw [State.exists_spriteByte (p := fun k b => ∃ j < 8, b.getLsbD (7 - j) = true
    ∧ ∃ (r : Fin 32) (c : Fin 64), c.val = (s.v[x]).toNat + j ∧ r.val = (s.v[y]).toNat + k ∧ (s.pix[r])[c] = true)]
  simp only [Bool.false_eq_true, false_or]
  constructor
  · rintro ⟨k, hk, j, hj, hb, row, col, hcol, hrow, hp⟩
    exact ⟨row, col, hp, k, hk, j, hj, hcol, hrow, hb⟩
  · rintro ⟨row, col, hp, k, hk, j, hj, hcol, hrow, hb⟩
    exact ⟨k, hk, j, hj, hb, row, col, hcol, hrow, hp⟩

/-- Where the sprite lies depends on memory, `I` and the two coordinates only. -/
theorem State.spriteCovers_congr {s t : State} {x y : RegIx} {n : Nibble} {row : Fin 32} {col : Fin 64} (hmem : t.mem = s.mem)
    (hi : t.i = s.i) (hx : t.v[x] = s.v[x]) (hy : t.v[y] = s.v[y]) :
    t.SpriteCovers x y n col row ↔ s.SpriteCovers x y n col row := by
  simp only [State.SpriteCovers, hmem, hi, hx, hy]

/-- `DXYN` with its bytes in range, component by component (R162). -/
theorem exec_drw_eq {s : State} (x y : RegIx) {n : Nibble} (h : n.toNat = 0 ∨ s.i.toNat + n.toNat ≤ 4096) :
    exec (.drw x y n) s = .next { s with
      pix := (s.drawn x y n).1, v := s.v.set 15 (flagByte (s.drawn x y n).2), dcf := true, pc := s.pc + 2 } :=
  exec_drw_of_inRange x y h

/-- Settles O51: the pixels and the collision of the sprite, the flag made of the collision, and one outcome of the instruction. -/
theorem drawXorsSprite : Obligations.DrawXorsSprite := by
  intro x y n s h
  have hflag : (s.v.set 15 (flagByte (s.drawn x y n).2))[15] = flagByte (s.drawn x y n).2 := Regs.getElem_set_self s.v 15 _
  refine ⟨_, exec_drw_eq x y h, fun row col => ?_, fun hhit => ?_, fun hmiss => ?_,
    fun k hk => Regs.getElem_set_ne s.v _ hk, rfl⟩
  · refine (s.drawn_pixel x y n row col).trans ?_
    cases (s.pix[row])[col] <;> simp [Xor]
  · exact hflag.trans (by rw [(s.drawn_collision x y n).mpr hhit]; rfl)
  · exact hflag.trans (by rw [Bool.eq_false_iff.mpr (mt (s.drawn_collision x y n).mp hmiss)]; rfl)

/-! ### Drawing twice -/

theorem Surface.ext_pixels {p q : Surface} (h : ∀ (row : Fin 32) (col : Fin 64), (p[row])[col] = true ↔ (q[row])[col] = true) :
    p = q :=
  Vector.ext fun row hrow => Vector.ext fun col hcol => Bool.eq_iff_iff.mpr (h ⟨row, hrow⟩ ⟨col, hcol⟩)

/-- The components of a draw in range that a second draw reads or changes. -/
theorem draw_next {s t : State} {x y : RegIx} {n : Nibble} (h : n.toNat = 0 ∨ s.i.toNat + n.toNat ≤ 4096)
    (ht : exec (.drw x y n) s = .next t) : t.pix = (s.drawn x y n).1 ∧ t.mem = s.mem ∧ t.i = s.i := by
  obtain rfl := next_inj.mp ((exec_drw_eq x y h).symm.trans ht)
  exact ⟨rfl, rfl, rfl⟩

/-- A draw that raises leaves the surface and `I`. -/
theorem draw_next_of_outOfRange {s t : State} {x y : RegIx} {n : Nibble} (h0 : 0 < n.toNat) (h : 4096 ≤ s.i.toNat + n.toNat - 1)
    (ht : exec (.drw x y n) s = .next t) : t.pix = s.pix ∧ t.i = s.i := by
  obtain rfl := raise_eq_next.mp ((exec_drw_of_outOfRange x y h0 h).symm.trans ht)
  exact ⟨rfl, rfl⟩

/-- Flipping twice is flipping nothing. -/
theorem flip_flip (a b : Prop) : Xor (Xor a b) b ↔ a := by
  unfold Xor
  tauto

/-- Settles O52: the two draws cover the same pixels, and flipping twice is flipping nothing; a draw that raises draws nothing, and then
so does the second. -/
theorem drawTwiceRestoresSurface : Obligations.DrawTwiceRestoresSurface := by
  intro x y n s t u ht hx hy hu
  rcases exec_drw_cases x y n s with ⟨h, -⟩ | ⟨h0, h, -⟩
  · obtain ⟨htpix, htmem, hti⟩ := draw_next h ht
    obtain ⟨hupix, -, -⟩ := draw_next (hti ▸ h) hu
    refine Surface.ext_pixels fun row col => ?_
    rw [hupix, State.drawn_pixel, State.spriteCovers_congr htmem hti hx hy, htpix, State.drawn_pixel]
    exact flip_flip _ _
  · obtain ⟨htpix, hti⟩ := draw_next_of_outOfRange h0 h ht
    obtain ⟨hupix, -⟩ := draw_next_of_outOfRange h0 (hti ▸ h) hu
    rw [hupix, htpix]

/-- Settles O53: after the clear no pixel is set, so the first draw sets exactly the covered ones (O51), which are what the second draw
collides with. -/
theorem clearThenDrawTwiceFlags : Obligations.ClearThenDrawTwiceFlags := by
  intro x y n s c t u h hc ht hx hy hu
  obtain ⟨hcpix, hcmem, hci, hcv⟩ := cls_next hc
  have hc0 (row : Fin 32) (col : Fin 64) : ¬ (c.pix[row])[col] = true := by
    rw [hcpix, Surface.blank_pixel]
    exact Bool.false_ne_true
  have hrange : n.toNat = 0 ∨ c.i.toNat + n.toNat ≤ 4096 := hci ▸ h
  obtain ⟨htpix, htmem, hti⟩ := draw_next hrange ht
  have hdrawn (row : Fin 32) (col : Fin 64) : (t.pix[row])[col] = true ↔ s.SpriteCovers x y n col row := by
    rw [htpix, State.drawn_pixel, State.spriteCovers_congr hcmem hci (by rw [hcv]) (by rw [hcv]), eq_false (hc0 row col),
      xor_false, id_eq]
  have hcovers (row : Fin 32) (col : Fin 64) : t.SpriteCovers x y n col row ↔ s.SpriteCovers x y n col row :=
    State.spriteCovers_congr (htmem.trans hcmem) (hti.trans hci) hx hy
  obtain ⟨t', ht', -, -, htmiss, -⟩ := drawXorsSprite x y n c hrange
  obtain ⟨u', hu', -, huhit, humiss, -⟩ := drawXorsSprite x y n t (hti ▸ hrange)
  obtain rfl := next_inj.mp (ht'.symm.trans ht)
  obtain rfl := next_inj.mp (hu'.symm.trans hu)
  exact ⟨htmiss fun ⟨row, col, hp, _⟩ => hc0 row col hp,
    fun ⟨row, col, hcov⟩ => huhit ⟨row, col, (hdrawn row col).mpr hcov, (hcovers row col).mpr hcov⟩,
    fun hno => humiss fun ⟨row, col, hp, _⟩ => hno ⟨row, col, (hdrawn row col).mp hp⟩⟩

/-! ### The output -/

/-- Entry `w * r + c` of rows of equal length `w` laid end to end is entry `c` of row `r`. -/
theorem getElem?_flatMap_rows {α β : Type} {f : α → List β} {w c : Nat} (hc : c < w) (rows : List α)
    (hf : ∀ a ∈ rows, (f a).length = w) (r : Nat) : (rows.flatMap f)[w * r + c]? = rows[r]?.bind fun a => (f a)[c]? := by
  induction rows generalizing r with
  | nil => rfl
  | cons a rows ih =>
    obtain ⟨ha, hrows⟩ := List.forall_mem_cons.mp hf
    rw [List.flatMap_cons]
    cases r with
    | zero => rw [Nat.mul_zero, Nat.zero_add, List.getElem?_append_left (by omega)]; rfl
    | succ r =>
      rw [List.getElem?_append_right (by rw [ha, Nat.mul_succ]; omega), List.getElem?_cons_succ, ← ih hrows r]
      congr 1
      rw [ha, Nat.mul_succ]
      omega

/-- Settles O59: 32 rows of 64 pixels laid end to end. -/
theorem displayOutputIsRowMajor : Obligations.DisplayOutputIsRowMajor := by
  intro s
  constructor
  · simp [State.displayOutput, List.length_flatMap]
  · intro row col
    rw [State.displayOutput, getElem?_flatMap_rows col.isLt _ (fun _ _ => Vector.length_toList)]
    simp

/-! ### The words the spec writes out -/

/-- Settles O1, word by word: the decoder computes. -/
theorem specWordsDecode : Obligations.SpecWordsDecode := by
  unfold Obligations.SpecWordsDecode
  decide

end Sys2Proof.Machine
end
